-- ==== Sys2Proof/Word.lean ====
section
/-!
DEFINITION. The widths of the engine: bytes, 32-bit words, the 68-bit command word, and the two kinds of
register file (five hash words, eighty schedule words).
-/

namespace Sys2Proof

/-- One byte of a message (00_scope.md R7). -/
abbrev Byte := BitVec 8

/-- One word of the hash state or of the message schedule (00_scope.md R7, R11): addition wraps modulo 2^32. -/
abbrev Word := BitVec 32

/-- The bit counter and the value of SETBITCOUNT (00_scope.md R13): addition wraps modulo 2^64. -/
abbrev DWord := BitVec 64

/-- A command word CW (30_encoding.md R55, R57). -/
abbrev CommandWord := BitVec 68

/-- The hash state H[0..4] (10_state.md R22). -/
abbrev Hash := Vector Word 5

/-- The message schedule W[0..79] (10_state.md R24). -/
abbrev Schedule := Vector Word 80

/-- The twenty bytes of a digest (10_state.md R31). -/
abbrev Digest := Vector Byte 20

end Sys2Proof
end

