-- ==== Sys2Proof/Machine/Operands.lean ====
section
/-!
DEFINITION. The fields of a command word and the operands of each format (30_encoding.md R57 to R60), in both
directions: reading them and laying them out.
-/

namespace Sys2Proof.Machine

/-- `op = CW[67:64]` (R57). -/
def opField (cw : CommandWord) : BitVec 4 := cw.extractLsb' 64 4

/-- `opnd = CW[63:0]` (R57). -/
def opndField (cw : CommandWord) : DWord := cw.extractLsb' 0 64

/-- Format U: `offset = sext_32(CW[63:32])` (R58). -/
def offsetOperand (cw : CommandWord) : Int := (cw.extractLsb' 32 32).toInt

/-- Format U: `length = sext_32(CW[31:0])` (R58). -/
def lengthOperand (cw : CommandWord) : Int := (cw.extractLsb' 0 32).toInt

/-- Format V: `value = zext_64(CW[63:0])` (R59). -/
def valueOperand (cw : CommandWord) : DWord := opndField cw

/-- `{op, opnd}` as one command word (R57). -/
def commandWord (op : BitVec 4) (opnd : DWord) : CommandWord :=
  (op.setWidth 68 <<< 64) ||| opnd.setWidth 68

/-- The operand field of format U: offset in the upper half, length in the lower, two's complement (R57, R67). -/
def updateOperand (offset length : Int) : DWord :=
  ((BitVec.ofInt 32 offset).setWidth 64 <<< 32) ||| (BitVec.ofInt 32 length).setWidth 64

end Sys2Proof.Machine
end

