-- ==== Sys2Proof/Syntax.lean ====
section
/-!
DEFINITION. The commands of the engine, one constructor per row of spec/opcode_table.json (30_encoding.md R61).
-/

namespace Sys2Proof

/-- A legal command with its operands. The operands of UPDATE are mathematical integers, as dispatch passes them
(R58, 41_intake.md R70); their range is checked by `Instr.wellFormed`. -/
inductive Instr where
  /-- RESET, format N (41_intake.md R71). -/
  | reset
  /-- UPDATE, format U (41_intake.md R73). -/
  | update (offset length : Int)
  /-- DIGEST, format N (42_finalize.md R81). -/
  | digest
  /-- SETBITCOUNT, format V (42_finalize.md R91). -/
  | setbitcount (value : DWord)
deriving DecidableEq, Repr

end Sys2Proof
end

