-- ==== Sys2Proof/WellFormed.lean ====
section
/-!
DEFINITION. Which commands a command word can hold: the operands of UPDATE fit signed 32 bits (30_encoding.md R58,
R67). The value of SETBITCOUNT has 64 bits by its type (R59).
-/

namespace Sys2Proof

/-- A number a signed 32-bit field can hold (30_encoding.md R58). -/
def fitsSigned32 (v : Int) : Bool :=
  decide (-2147483648 ≤ v) && decide (v ≤ 2147483647)

/-- The operands are in the range their fields can hold (30_encoding.md R58, R59, R67). -/
def Instr.wellFormed : Instr → Bool
  | .reset => true
  | .update offset length => fitsSigned32 offset && fitsSigned32 length
  | .digest => true
  | .setbitcount _ => true

end Sys2Proof
end

