-- ==== Sys2Proof/Decode.lean ====
section
/-!
DEFINITION. The decoder of command words (30_encoding.md R57 to R63, 41_intake.md R70), the encoder (R67) and the
opcode table (R61) as data.
-/

namespace Sys2Proof

/-- Why a command word is illegal. Dispatch raises IllegalCommand for either (41_intake.md R70). -/
inductive DecodeError where
  /-- op is 0x0 or one of 0x5 to 0xF (30_encoding.md R62). -/
  | reservedOp
  /-- A format N command whose operand is not zero (30_encoding.md R63). -/
  | operandNotZero
deriving DecidableEq, Repr

/-- What the decoder answers for a word. -/
inductive Decoded where
  | legal (i : Instr)
  | illegal (e : DecodeError)
deriving DecidableEq, Repr

/-- The command a word stands for, or why it is illegal: the case analysis of `Dispatch` (41_intake.md R70). -/
def decode (cw : CommandWord) : Decoded :=
  if Machine.opField cw = 0x1#4 then
    if Machine.opndField cw = 0#64 then .legal .reset else .illegal .operandNotZero
  else if Machine.opField cw = 0x2#4 then
    .legal (.update (Machine.offsetOperand cw) (Machine.lengthOperand cw))
  else if Machine.opField cw = 0x3#4 then
    if Machine.opndField cw = 0#64 then .legal .digest else .illegal .operandNotZero
  else if Machine.opField cw = 0x4#4 then
    .legal (.setbitcount (Machine.valueOperand cw))
  else .illegal .reservedOp

/-- The command word of a command (30_encoding.md R67). -/
def encode : Instr → CommandWord
  | .reset => Machine.commandWord 0x1#4 0#64
  | .update offset length => Machine.commandWord 0x2#4 (Machine.updateOperand offset length)
  | .digest => Machine.commandWord 0x3#4 0#64
  | .setbitcount value => Machine.commandWord 0x4#4 value

/-- One row of the opcode map (30_encoding.md R61). A word belongs to a row when `word AND mask = pattern`. -/
structure OpcodeRow where
  pattern : CommandWord
  mask : CommandWord
deriving DecidableEq, Repr

/-- The opcode map's four legal rows, `match` and `mask` as R61 prints them. -/
def opcodeTable : List OpcodeRow :=
  [{ pattern := 0x10000000000000000#68, mask := 0xFFFFFFFFFFFFFFFFF#68 },
   { pattern := 0x20000000000000000#68, mask := 0xF0000000000000000#68 },
   { pattern := 0x30000000000000000#68, mask := 0xFFFFFFFFFFFFFFFFF#68 },
   { pattern := 0x40000000000000000#68, mask := 0xF0000000000000000#68 }]

/-- The word belongs to the row. -/
def OpcodeRow.covers (r : OpcodeRow) (cw : CommandWord) : Bool := cw &&& r.mask == r.pattern

/-- The row of a command in `opcodeTable`. -/
def opcodeRow : Instr → OpcodeRow
  | .reset => { pattern := 0x10000000000000000#68, mask := 0xFFFFFFFFFFFFFFFFF#68 }
  | .update _ _ => { pattern := 0x20000000000000000#68, mask := 0xF0000000000000000#68 }
  | .digest => { pattern := 0x30000000000000000#68, mask := 0xFFFFFFFFFFFFFFFFF#68 }
  | .setbitcount _ => { pattern := 0x40000000000000000#68, mask := 0xF0000000000000000#68 }

/-- The command of the bits `w` numbered as the opcode table numbers them: bit 0 is bit 0 of the command word. The
bits from `nbits` up are zero, and a number wider than the 68 bits of a command word is none (log 4). -/
def decodeTableWord (nbits w : Nat) : Option Instr :=
  if w % 2 ^ nbits < 2 ^ 68 then
    match decode (BitVec.ofNat 68 (w % 2 ^ nbits)) with
    | .legal i => some i
    | .illegal _ => none
  else none

end Sys2Proof
end

