-- ==== Sys2Proof/Config.lean ====
section
/-!
DEFINITION. The values the spec leaves unspecified, as constants without a body. Each is applied to the draw
counter of State (and, for a racing byte, to its index), so that two draws need not agree. Nothing can evaluate
one, so a statement holds whatever they are. The engine has no implementation-defined parameter beside these.
-/

namespace Sys2Proof.Config

/-- FREE VALUE. H after a BoundsFault (60_exceptions.md R117; 93_implementation_defined.md U1). Log 5. -/
opaque freeHash : Nat → Hash

/-- FREE VALUE. W after a BoundsFault (R117; U1). Log 5. -/
opaque freeSchedule : Nat → Schedule

/-- FREE VALUE. lenW after a BoundsFault (R117; U1); the register's six bits are kept (10_state.md R25). Log 5. -/
opaque freeLenW : Nat → Fin 64

/-- FREE VALUE. bitCount after a BoundsFault (R117; U1). Log 5. -/
opaque freeBitCount : Nat → DWord

/-- FREE VALUE. The twenty bytes a DIGEST started with POISON = 1 writes to DOUT (42_finalize.md R86; U1). Log 5. -/
opaque freeDigest : Nat → Digest

/-- FREE VALUE. The byte an UPDATE absorbs at an index where a host write races it (20_memory.md R52; U5). Log 6. -/
opaque freeByte : Nat → Nat → Byte

end Sys2Proof.Config
end

