-- ==== Sys2Proof/Machine/Bits.lean ====
section
/-!
DEFINITION. Rotation and byte order (00_scope.md R12, R16).
-/

namespace Sys2Proof.Machine

/-- `rotl32(x, n)` for 0 < n < 32 (00_scope.md R12). -/
def rotl32 (x : Word) (n : Nat) : Word :=
  (x <<< n) ||| (x >>> (32 - n))

/-- `BE32(w)`: the four bytes of a word, most significant first (00_scope.md R16). -/
def be32 (w : Word) : List Byte :=
  [w.extractLsb' 24 8, w.extractLsb' 16 8, w.extractLsb' 8 8, w.extractLsb' 0 8]

/-- `BE64(v)`: the eight bytes of the bit counter, most significant first (00_scope.md R16). -/
def be64 (v : DWord) : List Byte :=
  [v.extractLsb' 56 8, v.extractLsb' 48 8, v.extractLsb' 40 8, v.extractLsb' 32 8,
   v.extractLsb' 24 8, v.extractLsb' 16 8, v.extractLsb' 8 8, v.extractLsb' 0 8]

end Sys2Proof.Machine
end

