-- ==== Sys2Proof/Machine/Constants.lean ====
section
/-!
DEFINITION. The five initial hash words (10_state.md R23) and the four round constants (43_compress.md R103).
-/

namespace Sys2Proof.Machine

/-- The initial constants of H (10_state.md R23). -/
def initialHash : Hash :=
  #v[0x67452301#32, 0xEFCDAB89#32, 0x98BADCFE#32, 0x10325476#32, 0xC3D2E1F0#32]

/-- `K(t)` (43_compress.md R99, R103). -/
def roundConstant (t : Nat) : Word :=
  if t < 20 then 0x5A827999#32
  else if t < 40 then 0x6ED9EBA1#32
  else if t < 60 then 0x8F1BBCDC#32
  else 0xCA62C1D6#32

end Sys2Proof.Machine
end

