-- ==== Sys2Proof/Machine/Memory.lean ====
section
/-!
DEFINITION. The host byte buffer `buf` (00_scope.md R8; 20_memory.md R40): its length and its bytes, as a list of
cells in one canonical form. Every finite list of bytes is exactly one canonical buffer (`Memory.ofBytes`).
-/

namespace Sys2Proof.Machine

/-- DESIGN CHOICE. What an index inside the buffer reads as when no cell lists it. Safe: it is a way of writing a
buffer down; each buffer of the spec has its canonical form. Log 3. -/
def unlistedByte : Byte := 0x00#8

/-- The host buffer: `len` is bufLen, `cells` the bytes that differ from `unlistedByte`, by rising index. -/
structure Memory where
  len : Nat
  cells : List Host.Cell
deriving DecidableEq, Repr

/-- The indexes rise strictly. -/
def cellsRise : List Host.Cell → Bool
  | [] => true
  | [_] => true
  | (a, _) :: (b, v) :: rest => decide (a < b) && cellsRise ((b, v) :: rest)

/-- The canonical form: rising indexes below bufLen, and no cell that says what an unlisted index reads as. -/
def Memory.wf (m : Memory) : Bool :=
  cellsRise m.cells && m.cells.all (fun c => decide (c.1 < m.len) && c.2 != unlistedByte)

/-- The byte the cells give an index. -/
def cellsGet : List Host.Cell → Nat → Byte
  | [], _ => unlistedByte
  | (a, v) :: rest, i => if a = i then v else cellsGet rest i

/-- The cells with the byte `b` at index `i`, canonical if they were. -/
def cellsPut : List Host.Cell → Nat → Byte → List Host.Cell
  | [], i, b => if b = unlistedByte then [] else [(i, b)]
  | (a, v) :: rest, i, b =>
    if i < a then
      if b = unlistedByte then (a, v) :: rest else (i, b) :: (a, v) :: rest
    else if i = a then
      if b = unlistedByte then rest else (i, b) :: rest
    else (a, v) :: cellsPut rest i b

/-- The empty buffer, bufLen = 0. -/
def Memory.empty : Memory := { len := 0, cells := [] }

/-- `BufRead(i)` = `MemRead(i, 1)`: defined only for 0 <= i < bufLen (00_scope.md R14). -/
def Memory.read (m : Memory) (i : Nat) : Option Byte :=
  if i < m.len then some (cellsGet m.cells i) else none

/-- A host write of one byte of buf; an index outside the buffer names no byte of it and writes none. -/
def Memory.write (m : Memory) (i : Nat) (b : Byte) : Memory :=
  if i < m.len then { m with cells := cellsPut m.cells i b } else m

/-- The cells of a byte list whose first byte has index `i`. -/
def cellsOf : Nat → List Byte → List Host.Cell
  | _, [] => []
  | i, b :: bs => if b = unlistedByte then cellsOf (i + 1) bs else (i, b) :: cellsOf (i + 1) bs

/-- The buffer that holds these bytes; bufLen is their number (00_scope.md R8). -/
def Memory.ofBytes (bs : List Byte) : Memory := { len := bs.length, cells := cellsOf 0 bs }

/-- The bytes of the buffer, index 0 first. -/
def Memory.bytes (m : Memory) : List Byte := (List.range m.len).map (cellsGet m.cells)

/-- `buf[a .. a+n-1]`, as far as the buffer reaches. -/
def Memory.slice (m : Memory) (a n : Nat) : List Byte := (m.bytes.drop a).take n

end Sys2Proof.Machine
end

