-- ==== Sys2Proof/Machine/State.lean ====
section
/-!
DEFINITION. The state of the engine and of the host beside it (10_state.md R20 to R39), the reasons a step can stop,
and the state after power-on reset (70_reset_and_hazards.md R132).
-/

namespace Sys2Proof.Machine

/-- The message state: H, W, lenW, bitCount (10_state.md R22, R24, R25, R26; 93_implementation_defined.md U1). -/
structure Message where
  H : Hash
  W : Schedule
  lenW : Fin 64
  bitCount : DWord
deriving DecidableEq, Repr

/-- The message state RESET and power-on reset leave (41_intake.md R71, 10_state.md R38). -/
def Message.fresh : Message :=
  { H := initialHash, W := Vector.replicate 80 0#32, lenW := 0, bitCount := 0#64 }

/-- What the outside world does to the engine. Log 4. -/
inductive HostAction where
  /-- The host issues a command word on the command port (30_encoding.md R55). -/
  | command (cw : CommandWord)
  /-- The host reads DOUT on the read port (30_encoding.md R55, 10_state.md R31). -/
  | readDout
  /-- The host reads STATUS on the read port (30_encoding.md R55, 10_state.md R32). -/
  | readStatus
  /-- The host supplies buf and with it bufLen (70_reset_and_hazards.md R135). -/
  | supplyBuf (bytes : List Byte)
  /-- A host write of one byte of buf that completes before the next command is issued (20_memory.md R50). -/
  | writeBuf (i : Nat) (b : Byte)
  /-- A host write of one byte of buf still in progress while the next command executes (20_memory.md R52). -/
  | beginWrite (i : Nat) (b : Byte)
  /-- The power-on reset input (70_reset_and_hazards.md R132). -/
  | powerOn
deriving DecidableEq, Repr

/-- What a host read returned. -/
inductive ReadData where
  /-- A read of DOUT: its twenty bytes, or no value while STATUS.DVALID = 0 (R31, 70_reset_and_hazards.md R139). Log 8. -/
  | dout (d : Option Digest)
  /-- A read of STATUS (R32). -/
  | status (b : BitVec 8)
deriving DecidableEq, Repr

/-- The engine's state (10_state.md R39), the host's side of it, and the model's draw counter. -/
structure State where
  /-- H, W, lenW, bitCount. -/
  msg : Message
  /-- The digest output register; none until the first DIGEST since power-on (R31, R39). Log 1. -/
  DOUT : Option Digest
  /-- The status register (R32); its fields are read and written by Machine/Flags.lean. -/
  STATUS : BitVec 8
  /-- The hidden poison flag (R33). -/
  POISON : Bool
  /-- The host byte buffer (20_memory.md R40). -/
  buf : Memory
  /-- The host actions not yet accepted, oldest first (30_encoding.md R55). -/
  port : List HostAction
  /-- The host writes in progress when the next command executes, oldest first (20_memory.md R52). -/
  inFlight : List Host.Cell
  /-- What the host has read so far, newest first (20_memory.md R51). -/
  received : List ReadData
  /-- The MODEL's own counter of free values taken; not the spec's. Log 5. -/
  draws : Nat
deriving DecidableEq, Repr

/-- Why a step stops. No command raises one: BoundsFault and IllegalCommand are faults of the ENGINE, which records
them in STATUS and goes on (60_exceptions.md R122), so they are next states. -/
inductive Fault where
  /-- An access to an index of buf outside 0..bufLen-1: no such byte exists (20_memory.md R40, 00_scope.md R14).
  Raised by the host actions `writeBuf` and `beginWrite`; UPDATE's bounds check keeps it from ever raising it. Safe.
  Log 9. -/
  | noSuchBufferByte
deriving DecidableEq, Repr

/-- Why a step has no meaning. -/
inductive Refusal where
  /-- A command without a meaning in this model, by its mnemonic. No arm of `exec` raises it. Safe. -/
  | notModelled (mnemonic : String)
deriving DecidableEq, Repr

/-- The state after power-on reset (10_state.md R38, 70_reset_and_hazards.md R132), with nothing issued by the host
and an empty buffer (DESIGN CHOICE, log 2, log 4, log 5). -/
def State.reset : State :=
  { msg := Message.fresh
    DOUT := none
    STATUS := 0x00#8
    POISON := false
    buf := Memory.empty
    port := []
    inFlight := []
    received := []
    draws := 0 }

end Sys2Proof.Machine
end

