-- ==== Sys2Proof/Machine/Compress.lean ====
section
/-!
DEFINITION. COMPRESS, the block compression (43_compress.md R95 to R109): schedule expansion, the 80 rounds in four
passes, the fold-back and the zeroing of W.
-/

namespace Sys2Proof.Machine

/-- `W[t]` (00_scope.md R10). COMPRESS reads t in 0..79 only (43_compress.md R107). -/
def scheduleAt (W : Schedule) (t : Nat) : Word := if h : t < 80 then W[t] else 0#32

/-- `W[t] <- v` (00_scope.md R10), for t in 0..79. -/
def schedulePut (W : Schedule) (t : Nat) (v : Word) : Schedule := if h : t < 80 then W.set t v else W

/-- One step of stage 1: `W[t] <- rotl32(W[t-3] XOR W[t-8] XOR W[t-14] XOR W[t-16], 1)` (R97). -/
def expandAt (W : Schedule) (t : Nat) : Schedule :=
  schedulePut W t
    (rotl32 (scheduleAt W (t - 3) ^^^ scheduleAt W (t - 8) ^^^ scheduleAt W (t - 14) ^^^ scheduleAt W (t - 16)) 1)

/-- Stage 1, for t = 16..79 in ascending order (R97). -/
def expandSchedule (W : Schedule) : Schedule := (List.range' 16 64).foldl expandAt W

/-- The working variables of one compression (10_state.md R29); they live inside COMPRESS only. -/
structure Working where
  A : Word
  B : Word
  C : Word
  D : Word
  E : Word
deriving DecidableEq, Repr

/-- Stage 2 (R98). -/
def initWorking (H : Hash) : Working := { A := H[0], B := H[1], C := H[2], D := H[3], E := H[4] }

/-- `f_ch`, with AND before XOR (R100; 90_conflicts.md C3). -/
def fCh (B C D : Word) : Word := ((C ^^^ D) &&& B) ^^^ D

/-- `f_parity` (R101). -/
def fParity (B C D : Word) : Word := B ^^^ C ^^^ D

/-- `f_maj` (R102). -/
def fMaj (B C D : Word) : Word := (B &&& C) ||| (D &&& (B ||| C))

/-- `f(t, B, C, D)` by the pass table (R99). -/
def roundFunction (t : Nat) (B C D : Word) : Word :=
  if t < 20 then fCh B C D
  else if t < 40 then fParity B C D
  else if t < 60 then fMaj B C D
  else fParity B C D

/-- One round: the round step (R104) and the register shift (R105). -/
def roundStep (t : Nat) (w : Word) (v : Working) : Working :=
  { A := rotl32 v.A 5 + roundFunction t v.B v.C v.D + v.E + w + roundConstant t
    B := v.A
    C := rotl32 v.B 30
    D := v.C
    E := v.D }

/-- Stage 3: rounds t = 0..79 in order, round t reading W[t] alone (R106). -/
def runRounds (W : Schedule) (v : Working) : Working :=
  (List.range 80).foldl (fun v t => roundStep t (scheduleAt W t) v) v

/-- Stage 4: the fold-back (R108). -/
def foldBack (H : Hash) (v : Working) : Hash :=
  #v[H[0] + v.A, H[1] + v.B, H[2] + v.C, H[3] + v.D, H[4] + v.E]

/-- COMPRESS (R96): stages 1 to 4 into H, then stage 5, all eighty words of W to 0 (R109). -/
def compress (m : Message) : Message :=
  { m with
    H := foldBack m.H (runRounds (expandSchedule m.W) (initWorking m.H))
    W := Vector.replicate 80 0#32 }

end Sys2Proof.Machine
end

