-- ==== Sys2Proof/Machine/Flags.lean ====
section
/-!
DEFINITION. The fields of STATUS and every way they are written (10_state.md R32, 60_exceptions.md R117, R118). There
are no condition codes (10_state.md R35).
-/

namespace Sys2Proof.Machine

/-- The causes the engine records (60_exceptions.md R115). -/
inductive FaultCause where
  | boundsFault
  | illegalCommand
deriving DecidableEq, Repr

/-- The CAUSE code of a fault (60_exceptions.md R115). -/
def faultCauseCode : FaultCause → BitVec 2
  | .boundsFault => 1#2
  | .illegalCommand => 2#2

/-- STATUS.FAULT, bit 0. -/
def statusFault (st : BitVec 8) : Bool := st.getLsbD 0

/-- STATUS.CAUSE, bits 2:1. -/
def statusCause (st : BitVec 8) : BitVec 2 := st.extractLsb' 1 2

/-- STATUS.DVALID, bit 3. -/
def statusDvalid (st : BitVec 8) : Bool := st.getLsbD 3

/-- STATUS bits 7:4, reserved. -/
def statusReserved (st : BitVec 8) : BitVec 4 := st.extractLsb' 4 4

/-- `STATUS.CAUSE <- c`, the other bits kept. -/
def statusWithCause (st : BitVec 8) (c : BitVec 2) : BitVec 8 :=
  (st &&& 0xF9#8) ||| (c.setWidth 8 <<< 1)

/-- `STATUS.FAULT <- 1`, the other bits kept. -/
def statusWithFault (st : BitVec 8) : BitVec 8 := st ||| 0x01#8

/-- `STATUS.DVALID <- 1`, the other bits kept (42_finalize.md R86). -/
def statusWithDvalid (st : BitVec 8) : BitVec 8 := st ||| 0x08#8

/-- `if STATUS.FAULT == 0 then STATUS.CAUSE <- c; STATUS.FAULT <- 1` (60_exceptions.md R117, R118). -/
def statusRecordFault (st : BitVec 8) (c : FaultCause) : BitVec 8 :=
  statusWithFault (if statusFault st then st else statusWithCause st (faultCauseCode c))

/-- What a host read of STATUS returns: bits 7:4 read as 0 (10_state.md R32). -/
def statusRead (st : BitVec 8) : BitVec 8 := st &&& 0x0F#8

end Sys2Proof.Machine
end

