-- ==== Sys2Proof/Machine/Ops.lean ====
section
/-!
DEFINITION. The operations the commands share: ABSORB (41_intake.md R75), reading the buffer (20_memory.md R41),
taking a fault and recovering from one (60_exceptions.md R117, R118, R124), draining H (42_finalize.md R85), the host's
reads (10_state.md R31, R32) and power-on reset (70_reset_and_hazards.md R132).
-/

namespace Sys2Proof.Machine

/-- ABSORB(b) (41_intake.md R75). The counter reaches 64 inside this operation only: at lenW = 63 the byte is placed,
the block is compressed and lenW is 0. -/
def absorb (m : Message) (b : Byte) : Message :=
  let j := m.lenW.val / 4
  let placed := { m with W := schedulePut m.W j ((scheduleAt m.W j <<< 8) ||| b.setWidth 32) }
  let n := m.lenW.val + 1
  let filled :=
    if h : n < 64 then { placed with lenW := ⟨n, h⟩ } else { compress placed with lenW := 0 }
  { filled with bitCount := m.bitCount + 8#64 }

/-- One ABSORB a byte, in order (41_intake.md R73, R74). -/
def absorbAll (m : Message) (bs : List Byte) : Message := bs.foldl absorb m

/-- A host write in progress touches index `i` (20_memory.md R52). -/
def raced (s : State) (i : Nat) : Bool := s.inFlight.any (fun c => c.1 == i)

/-- Some index of `a .. a+n-1` is touched by a host write in progress. -/
def rangeRaced (s : State) (a n : Nat) : Bool :=
  s.inFlight.any (fun c => decide (a ≤ c.1) && decide (c.1 < a + n))

/-- `BufRead(i)` by the engine (00_scope.md R14): the byte of buf, any byte where a host write races the read
(20_memory.md R52), nothing outside the buffer. -/
def engineRead (s : State) (i : Nat) : Option Byte :=
  (s.buf.read i).map (fun b => if raced s i then Config.freeByte s.draws i else b)

/-- The reads of one UPDATE: `buf[a]`, ..., `buf[a+n-1]`, each once, in ascending order (20_memory.md R41). -/
def engineReadRange (s : State) (a : Nat) : Nat → Option (List Byte)
  | 0 => some []
  | n + 1 =>
    match engineRead s a, engineReadRange s (a + 1) n with
    | some b, some bs => some (b :: bs)
    | _, _ => none

/-- `InBounds(offset, length)` on mathematical integers (41_intake.md R72). -/
def inBounds (offset length : Int) (bufLen : Nat) : Bool :=
  decide (0 ≤ offset) && decide (0 ≤ length) && decide (offset + length ≤ (bufLen : Int))

/-- Any message state: a draw per field (93_implementation_defined.md U1, U12). Log 5, log 10. -/
def freeMessage (n : Nat) : Message :=
  { H := Config.freeHash n
    W := Config.freeSchedule n
    lenW := Config.freeLenW n
    bitCount := Config.freeBitCount n }

/-- What every fault entry does: record the fault in STATUS (60_exceptions.md R117, R118, R119). Control goes
nowhere (R122); there is no return from a fault (R123). -/
def recordFault (c : FaultCause) (s : State) : State :=
  { s with STATUS := statusRecordFault s.STATUS c }

/-- BoundsFaultEntry (60_exceptions.md R117): the message state becomes unspecified. -/
def boundsFaultEntry (s : State) : State :=
  { recordFault .boundsFault s with POISON := true, msg := freeMessage s.draws, draws := s.draws + 1 }

/-- IllegalCommandEntry (60_exceptions.md R118). -/
def illegalCommandEntry (s : State) : State := recordFault .illegalCommand s

/-- The message state re-initialised and POISON cleared: RESET's effect, and the only recovery from a BoundsFault
(41_intake.md R71, 60_exceptions.md R124). -/
def resetMessage (s : State) : State := { s with msg := Message.fresh, POISON := false }

/-- DIGEST step (c): `while lenW != 56: ABSORB(0x00)`, the test before each byte (42_finalize.md R83). The loop ends
within 63 bytes (R83), so that is the fuel it is given. -/
def padZeros : Nat → Message → Message
  | 0, m => m
  | n + 1, m => if m.lenW.val = 56 then m else padZeros n (absorb m 0x00#8)

/-- DIGEST steps (a) to (d): the length is captured, then 0x80, the zeros and the eight captured bytes are absorbed
(42_finalize.md R82, R83, R84). -/
def padMessage (m : Message) : Message :=
  absorbAll (padZeros 63 (absorb m 0x80#8)) (be64 m.bitCount)

/-- One iteration of DIGEST step (e): byte i is `H[i/4][31:24]`, then that word is shifted left by 8
(42_finalize.md R85). -/
def drainByte (st : List Byte × Hash) (i : Nat) : List Byte × Hash :=
  let w := st.2[i / 4]?.getD 0#32
  (st.1 ++ [w.extractLsb' 24 8], st.2.setIfInBounds (i / 4) (w <<< 8))

/-- DIGEST step (e), i = 0..19: the bytes out and H as it is left (42_finalize.md R85). -/
def drainHash (H : Hash) : List Byte × Hash := (List.range 20).foldl drainByte ([], H)

/-- The bytes as a DOUT value, `DOUT[i] <- out[i]` (42_finalize.md R86). -/
def digestOfBytes (out : List Byte) : Digest := Vector.ofFn fun (i : Fin 20) => out.getD i.val 0x00#8

/-- A host read of DOUT: no value while DVALID = 0 (10_state.md R31). -/
def hostReadDout (s : State) : Option Digest := if statusDvalid s.STATUS then s.DOUT else none

/-- A host read of STATUS (10_state.md R32). -/
def hostReadStatus (s : State) : BitVec 8 := statusRead s.STATUS

/-- Power-on reset (70_reset_and_hazards.md R132): the engine's state is fresh, STATUS is 0, DOUT has no value. The
host's side is the host's and stays (log 11). -/
def powerOnReset (s : State) : State :=
  { resetMessage s with STATUS := 0x00#8, DOUT := none }

/-- The host writes that were in progress complete when the command does (20_memory.md R52; log 6). -/
def landWrites (s : State) : State :=
  { s with buf := s.inFlight.foldl (fun m c => m.write c.1 c.2) s.buf, inFlight := [] }

end Sys2Proof.Machine
end

