-- ==== Sys2Proof/Machine/Finalize.lean ====
section
/-!
DEFINITION. DIGEST and SETBITCOUNT (42_finalize.md R80 to R94).
-/

namespace Sys2Proof.Machine

/-- The twenty bytes DIGEST writes to DOUT: the drained hash, or, if POISON was 1 when it started, any bytes
(42_finalize.md R86; 93 U1). -/
def digestOutput (s : State) : Digest :=
  if s.POISON then Config.freeDigest s.draws else digestOfBytes (drainHash (padMessage s.msg).H).1

/-- DIGEST (42_finalize.md R81): pad and compress, drain H, reset the message state, write DOUT, set DVALID. The
reset writes every word the padding and the drain touched (R94). -/
def execDigest (s : State) : Host.Outcome State Fault Refusal :=
  .next { resetMessage s with
    DOUT := some (digestOutput s)
    STATUS := statusWithDvalid s.STATUS
    draws := if s.POISON then s.draws + 1 else s.draws }

/-- SETBITCOUNT (42_finalize.md R91): `bitCount <- value`, every value legal, nothing else touched. -/
def execSetbitcount (value : DWord) (s : State) : Host.Outcome State Fault Refusal :=
  .next { s with msg := { s.msg with bitCount := value } }

end Sys2Proof.Machine
end

