-- ==== Sys2Proof/Machine/Intake.lean ====
section
/-!
DEFINITION. RESET and UPDATE (41_intake.md R71 to R79).
-/

namespace Sys2Proof.Machine

/-- RESET (41_intake.md R71): no failure mode; STATUS and DOUT are unchanged. -/
def execReset (s : State) : Host.Outcome State Fault Refusal := .next (resetMessage s)

/-- What an in-bounds UPDATE does with the bytes it read: one ABSORB each (41_intake.md R73). While POISON = 1 the
message state it leaves is unspecified (R79; 93 U12; log 10); no byte leaves the state as it is. `raced` says that a
free value was taken for some byte. -/
def absorbRead (bs : List Byte) (raced : Bool) (s : State) : State :=
  if s.POISON && !bs.isEmpty then { s with msg := freeMessage s.draws, draws := s.draws + 1 }
  else { s with msg := absorbAll s.msg bs, draws := if raced then s.draws + 1 else s.draws }

/-- UPDATE (41_intake.md R73): the bounds check comes before any read. The outcome `noSuchBufferByte` is never
reached, since every index of a range in bounds is an index of buf. -/
def execUpdate (offset length : Int) (s : State) : Host.Outcome State Fault Refusal :=
  if inBounds offset length s.buf.len then
    match engineReadRange s offset.toNat length.toNat with
    | some bs => .next (absorbRead bs (rangeRaced s offset.toNat length.toNat) s)
    | none => .fault .noSuchBufferByte
  else .next (boundsFaultEntry s)

end Sys2Proof.Machine
end

