-- ==== Sys2Proof/Machine/Dispatch.lean ====
section
/-!
DEFINITION. The meaning of each command (41_intake.md R70, the legal arms of Dispatch).
-/

namespace Sys2Proof.Machine

def exec (i : Instr) (s : State) : Host.Outcome State Fault Refusal :=
  match i with
  | .reset => Sys2Proof.Machine.execReset s
  | .update offset length => Sys2Proof.Machine.execUpdate offset length s
  | .digest => Sys2Proof.Machine.execDigest s
  | .setbitcount value => Sys2Proof.Machine.execSetbitcount value s

end Sys2Proof.Machine
end

