-- ==== Sys2Proof/Machine/HostPort.lean ====
section
/-!
DEFINITION. What the engine does with one action of the host: dispatch of a command word (41_intake.md R70), the read
port (30_encoding.md R55), the host's writes of buf (20_memory.md R50, R52) and power-on reset (R132).
-/

namespace Sys2Proof.Machine

/-- Dispatch(CW) (41_intake.md R70): legality first (60_exceptions.md R120). -/
def dispatchCommand (cw : CommandWord) (s : State) : Host.Outcome State Fault Refusal :=
  match decode cw with
  | .legal i => exec i s
  | .illegal _ => .next (illegalCommandEntry s)

/-- The command completes: host writes that were in progress during it complete too (20_memory.md R52). -/
def completeCommand : Host.Outcome State Fault Refusal → Host.Outcome State Fault Refusal
  | .next s => .next (landWrites s)
  | .fault r => .fault r
  | .refused r => .refused r

/-- A host read of DOUT, possible at any time between commands: its value, or no value where it has none, and the engine
is as before (10_state.md R31, 70_reset_and_hazards.md R139; 93 U3; log 8). -/
def readDoutPort (s : State) : Host.Outcome State Fault Refusal :=
  .next { s with received := .dout (hostReadDout s) :: s.received }

/-- One host action. -/
def hostStep (a : HostAction) (s : State) : Host.Outcome State Fault Refusal :=
  match a with
  | .command cw => completeCommand (dispatchCommand cw s)
  | .readDout => readDoutPort s
  | .readStatus => .next { s with received := .status (hostReadStatus s) :: s.received }
  | .supplyBuf bytes => .next { s with buf := Memory.ofBytes bytes, inFlight := [] }
  | .writeBuf i b =>
    if i < s.buf.len then .next { s with buf := s.buf.write i b } else .fault .noSuchBufferByte
  | .beginWrite i b =>
    if i < s.buf.len then .next { s with inFlight := s.inFlight ++ [(i, b)] } else .fault .noSuchBufferByte
  | .powerOn => .next (powerOnReset s)

/-- The command word of table bits: those below `nbits`, cut to the 68 bits of the port (30_encoding.md R57). -/
def portWord (nbits w : Nat) : CommandWord := BitVec.ofNat 68 (w % 2 ^ nbits)

end Sys2Proof.Machine
end

