-- ==== Sys2Proof/Machine/Step.lean ====
section
/-!
DEFINITION. One step: the oldest host action not yet accepted (30_encoding.md R55, R56). With none the engine is idle
and holds its state (60_exceptions.md R131).
-/

namespace Sys2Proof.Machine

/-- One step of the machine. A command is one step (30_encoding.md R56). -/
def step (s : State) : Host.Outcome State Fault Refusal :=
  match s.port with
  | [] => .next s
  | a :: rest => hostStep a { s with port := rest }

/-- The state in which the host has issued that command word as the next one: it stands first on the port, which is
where the engine takes its commands (30_encoding.md R55; log 4). -/
def State.withFetchWord (s : State) (nbits w : Nat) : State :=
  { s with port := .command (portWord nbits w) :: s.port }

end Sys2Proof.Machine
end

