-- ==== Sys2Proof/Machine/Assembler.lean ====
section
/-!
DEFINITION. The assembler syntax and the pseudo-commands (30_encoding.md R67, R68), one command a line, over lists of
characters. What R67 does not say of the text's lexical form is log 13.
-/

namespace Sys2Proof.Machine

/-- Why a line is refused. -/
inductive AsmError where
  /-- The line is not one of the forms of R67 and R68. -/
  | badLine
  /-- A value outside the stated range (R67: refused, not truncated). -/
  | outOfRange
deriving DecidableEq, Repr

/-- The line up to its comment: a `;` starts a comment (R67). -/
def dropComment : List Char → List Char
  | [] => []
  | c :: cs => if c = ';' then [] else c :: dropComment cs

/-- A character between tokens. -/
def isBlank (c : Char) : Bool := c = ' ' || c = '\t' || c = '\r' || c = '\n'

/-- The tokens of a line: runs of characters without blanks, and each comma by itself. `cur` is the token being
read, last character first. -/
def asmTokens : List Char → List Char → List (List Char)
  | [], cur => if cur.isEmpty then [] else [cur.reverse]
  | c :: cs, cur =>
    if isBlank c || c = ',' then
      (if cur.isEmpty then [] else [cur.reverse]) ++ (if c = ',' then [[',']] else []) ++ asmTokens cs []
    else asmTokens cs (c :: cur)

/-- Mnemonics are case-insensitive (R67): the lower-case letter of an ASCII capital. -/
def lowerChar (c : Char) : Char := if 65 ≤ c.toNat ∧ c.toNat ≤ 90 then Char.ofNat (c.toNat + 32) else c

/-- The value of a digit in the base, if it is one. -/
def digitValue (base : Nat) (c : Char) : Option Nat :=
  let v :=
    if 48 ≤ c.toNat ∧ c.toNat ≤ 57 then c.toNat - 48
    else if 97 ≤ c.toNat ∧ c.toNat ≤ 102 then c.toNat - 87
    else if 65 ≤ c.toNat ∧ c.toNat ≤ 70 then c.toNat - 55
    else base
  if v < base then some v else none

/-- The number the digits write after `acc`, if all are digits. -/
def digitsValue (base : Nat) : Nat → List Char → Option Nat
  | acc, [] => some acc
  | acc, c :: cs =>
    match digitValue base c with
    | some d => digitsValue base (acc * base + d) cs
    | none => none

/-- A number, decimal or `0x` hex (R67). -/
def unsignedNumber : List Char → Option Nat
  | [] => none
  | '0' :: 'x' :: [] => none
  | '0' :: 'x' :: cs => digitsValue 16 0 cs
  | cs => digitsValue 10 0 cs

/-- A number of format U: negative decimals are allowed (R67). -/
def signedNumber : List Char → Option Int
  | '-' :: [] => none
  | '-' :: cs => (digitsValue 10 0 cs).map fun n => -(n : Int)
  | cs => (unsignedNumber cs).map fun n => (n : Int)

/-- `update OFF, LEN`, the values in range (R67). -/
def asmUpdate (off len : List Char) : Except AsmError Instr :=
  match signedNumber off, signedNumber len with
  | some o, some l => if fitsSigned32 o && fitsSigned32 l then .ok (.update o l) else .error .outOfRange
  | _, _ => .error .badLine

/-- `setbitcount V`, the value in range (R67). -/
def asmSetbitcount (v : List Char) : Except AsmError Instr :=
  match unsignedNumber v with
  | some n => if n < 2 ^ 64 then .ok (.setbitcount (BitVec.ofNat 64 n)) else .error .outOfRange
  | none =>
    match signedNumber v with
    | some _ => .error .outOfRange
    | none => .error .badLine

/-- The commands one line of tokens stands for: a command of R67, or the expansion of a pseudo-command (R68). -/
def asmLine : List (List Char) → Except AsmError (List Instr)
  | [] => .ok []
  | [m] =>
    let name := m.map lowerChar
    if name = ['r', 'e', 's', 'e', 't'] then .ok [.reset]
    else if name = ['d', 'i', 'g', 'e', 's', 't'] then .ok [.digest]
    else if name = ['n', 'o', 'p'] then .ok [.update 0 0]
    else .error .badLine
  | [m, v] =>
    if m.map lowerChar = ['s', 'e', 't', 'b', 'i', 't', 'c', 'o', 'u', 'n', 't'] then
      (asmSetbitcount v).map fun i => [i]
    else .error .badLine
  | [m, off, comma, len] =>
    let name := m.map lowerChar
    if comma = [','] then
      if name = ['u', 'p', 'd', 'a', 't', 'e'] then (asmUpdate off len).map fun i => [i]
      else if name = ['h', 'a', 's', 'h'] then (asmUpdate off len).map fun i => [.reset, i, .digest]
      else .error .badLine
    else .error .badLine
  | _ => .error .badLine

/-- The command words of one line of assembler text (R67, R68). -/
def assemble (line : List Char) : Except AsmError (List CommandWord) :=
  (asmLine (asmTokens (dropComment line) [])).map fun is => is.map encode

end Sys2Proof.Machine
end

