-- ==== Sys2Proof/Machine/Reference.lean ====
section
/-!
DEFINITION. The pure forms the spec gives beside the engine's operations: packing (10_state.md R27), the compression
function of a hash value and a block (43_compress.md R110), its 16-word-window form with the other spellings of the
pass functions (R111, R112, R113), the padded message and its digest (42_finalize.md R80, R88), and the counts of
internal operations (70_reset_and_hazards.md R144). The step uses none of these; statements compare it with them.
-/

namespace Sys2Proof.Machine

/-- `zext_32({b0, b1, ...})`: bytes most significant first in the low end of a word (10_state.md R27). -/
def packWord (bs : List Byte) : Word := bs.foldl (fun w b => (w <<< 8) ||| b.setWidth 32) 0#32

/-- The schedule that holds the first bytes of a block: word j has bytes 4j..4j+3, every other word is 0
(10_state.md R27 (a), (b), (c)). -/
def packBlock (bs : List Byte) : Schedule :=
  Vector.ofFn fun (j : Fin 80) => packWord ((bs.drop (4 * j.val)).take 4)

/-- The message state has absorbed exactly the bytes `bs` of the current block (10_state.md R27). -/
def Message.Holds (m : Message) (bs : List Byte) : Prop := m.lenW.val = bs.length ∧ m.W = packBlock bs

/-- One more word of a schedule written as a list: the recurrence of 43_compress.md R97. -/
def nextWord (ws : List Word) : Word :=
  let t := ws.length
  rotl32 (ws.getD (t - 3) 0#32 ^^^ ws.getD (t - 8) 0#32 ^^^ ws.getD (t - 14) 0#32 ^^^ ws.getD (t - 16) 0#32) 1

/-- The first `16 + n` schedule words of a block (43_compress.md R110, R97). -/
def blockSchedule (M : List Byte) : Nat → List Word
  | 0 => (List.range 16).map fun j => packWord ((M.drop (4 * j)).take 4)
  | n + 1 =>
    let ws := blockSchedule M n
    ws ++ [nextWord ws]

/-- `Compress(Hv, M)` (43_compress.md R110). -/
def pureCompress (Hv : Hash) (M : List Byte) : Hash :=
  let ws := blockSchedule M 64
  foldBack Hv ((List.range 80).foldl (fun v t => roundStep t (ws.getD t 0#32) v) (initWorking Hv))

/-- `f_ch` in the form of 43_compress.md R111. -/
def fChSelect (B C D : Word) : Word := (B &&& C) ||| (~~~B &&& D)

/-- `f_maj` in the form of 43_compress.md R112. -/
def fMajPairs (B C D : Word) : Word := (B &&& C) ||| (B &&& D) ||| (C &&& D)

/-- One round in the window form: the window holds W[t], ..., W[t+15]; the round takes W[t], and W[t+16] enters from
the four earlier words (43_compress.md R113). -/
def windowRound (st : List Word × Working) (t : Nat) : List Word × Working :=
  let win := st.1
  let v := st.2
  let f :=
    if t < 20 then fChSelect v.B v.C v.D
    else if 40 ≤ t ∧ t < 60 then fMajPairs v.B v.C v.D
    else fParity v.B v.C v.D
  (win.drop 1 ++
      [rotl32 (win.getD 13 0#32 ^^^ win.getD 8 0#32 ^^^ win.getD 2 0#32 ^^^ win.getD 0 0#32) 1],
    { A := rotl32 v.A 5 + f + v.E + win.getD 0 0#32 + roundConstant t
      B := v.A
      C := rotl32 v.B 30
      D := v.C
      E := v.D })

/-- The hash a window implementation of COMPRESS leaves, from W[0..15] (43_compress.md R113). -/
def windowCompress (H : Hash) (W : Schedule) : Hash :=
  let first := (List.range 16).map (scheduleAt W)
  foldBack H ((List.range 80).foldl windowRound (first, initWorking H)).2

/-- The number of zero bytes of padding, `(55 - n0) mod 64` (42_finalize.md R80). -/
def zeroCount (n0 : Nat) : Nat := (119 - n0) % 64

/-- The padding of a message whose last block has n0 bytes and whose length field is c (42_finalize.md R80). -/
def padding (n0 : Nat) (c : DWord) : List Byte :=
  [0x80#8] ++ List.replicate (zeroCount n0) 0x00#8 ++ be64 c

/-- The first `n` blocks of 64 bytes. -/
def blocks : Nat → List Byte → List (List Byte)
  | 0, _ => []
  | n + 1, S => S.take 64 :: blocks n (S.drop 64)

/-- Compress each 64-byte block of `S` in order, from the hash value `Hv` (42_finalize.md R88). -/
def compressBlocks (Hv : Hash) (S : List Byte) : Hash := (blocks (S.length / 64) S).foldl pureCompress Hv

/-- `BE32(H[0]) || ... || BE32(H[4])` (20_memory.md R44). -/
def digestBytes (H : Hash) : List Byte :=
  be32 H[0] ++ be32 H[1] ++ be32 H[2] ++ be32 H[3] ++ be32 H[4]

/-- The digest of a message: pad it with its length in bits, compress every block from the initial constants, emit
the words (42_finalize.md R88). -/
def sha1 (m : List Byte) : List Byte :=
  digestBytes (compressBlocks initialHash (m ++ padding (m.length % 64) (BitVec.ofNat 64 (8 * m.length))))

/-- How many of these ABSORBs run COMPRESS: those that start at lenW = 63 (41_intake.md R77). -/
def compressCount : Message → List Byte → Nat
  | _, [] => 0
  | m, b :: bs => (if m.lenW.val = 63 then 1 else 0) + compressCount (absorb m b) bs

end Sys2Proof.Machine
end

