-- ==== Sys2Proof/Safety.lean ====
section
/-!
DEFINITION. What a claim about a run takes as premises (70_reset_and_hazards.md R136, R146) and the invariant of the
machine between commands (10_state.md R27, R32, R33; 93_implementation_defined.md U8).
-/

namespace Sys2Proof.Safety

open Sys2Proof.Machine

/-- `FreshEngine`: the engine as power-on reset leaves it (R136, R132). -/
def FreshEngine (s : State) : Prop :=
  s.msg = Message.fresh ∧ s.STATUS = 0x00#8 ∧ s.POISON = false ∧ s.DOUT = none

/-- `HostBuffer(buf)`: buf holds these bytes and bufLen is their number (R136). -/
def HostBuffer (bytes : List Byte) (s : State) : Prop := s.buf = Memory.ofBytes bytes

/-- No host write is in progress (R138, R146). -/
def NoRace (s : State) : Prop := s.inFlight = []

/-- No fault has been recorded since power-on (R124, R146). -/
def NoFault (s : State) : Prop := statusFault s.STATUS = false

/-- DOUT holds a digest (R146). -/
def DoutValid (s : State) : Prop := statusDvalid s.STATUS = true

/-- Commands executed one after the other, each to completion (10_state.md R20). -/
def execAll : List Instr → State → Host.Outcome State Fault Refusal
  | [], s => .next s
  | i :: is, s =>
    match exec i s with
    | .next t => execAll is t
    | .fault r => .fault r
    | .refused r => .refused r

/-- The STATUS bits the engine can hold: bits 7:4 are 0, CAUSE is never 3, and a cause is recorded exactly when a
fault is (10_state.md R32; 93 U8). -/
def StatusLegal (st : BitVec 8) : Prop :=
  statusReserved st = 0#4 ∧ statusCause st ≠ 3#2 ∧ (statusFault st = true ↔ statusCause st ≠ 0#2)

/-- Between commands: the buffer is canonical, STATUS is legal, DVALID says whether DOUT holds a value, a poisoned
engine has a recorded fault, an engine not poisoned holds the bytes of its block packed as R27 says, and the host writes
in progress are to bytes of buf. -/
structure Inv (s : State) : Prop where
  bufCanonical : s.buf.wf = true
  statusLegal : StatusLegal s.STATUS
  doutValid : statusDvalid s.STATUS = true ↔ s.DOUT.isSome = true
  poisonFaulted : s.POISON = true → statusFault s.STATUS = true
  blockPacked : s.POISON = false → ∃ bs, s.msg.Holds bs
  writesInBuf : ∀ c ∈ s.inFlight, c.1 < s.buf.len

end Sys2Proof.Safety
end

