-- ==== Sys2Proof/Certificates/Slice0/Obligations.lean ====
section
/-!
DEFINITION. The statements for the provers, from the numbered rules of spec/. Each docstring names its rules. Where a
clause is the model's own choice it names the log entry.
-/

open Sys2Proof Sys2Proof.Machine Sys2Proof.Safety

/-! ### Encoding -/

/-- 30_encoding.md R57 to R61, R67: decoding an encoded command gives it back, every operand at every value. -/
def Obligations.DecodeOfEncodeIsTheCommand : Prop :=
  ∀ i : Instr, i.wellFormed = true → decode (encode i) = .legal i

/-- R57 to R63: a word that decodes is the one word of its command, and that command is well-formed. -/
def Obligations.EncodeOfDecodeIsTheWord : Prop :=
  ∀ (cw : CommandWord) (i : Instr), decode cw = .legal i → i.wellFormed = true ∧ encode i = cw

/-- R61: the legal words are exactly those of the opcode map's four rows, each decoded as the command of its row. -/
def Obligations.LegalWordsAreTheOpcodeRows : Prop :=
  ∀ cw : CommandWord,
    ((∃ i, decode cw = .legal i) ↔ ∃ r ∈ opcodeTable, r.covers cw = true) ∧
    ∀ i, decode cw = .legal i → opcodeRow i ∈ opcodeTable ∧ (opcodeRow i).covers cw = true

/-- R58, R59: a word of op 2 is UPDATE of its two 32-bit fields read as two's complement, and a negative one is out of
bounds of every buffer; a word of op 4 is SETBITCOUNT of its low 64 bits, every value legal. -/
def Obligations.OperandsAreTheFields : Prop :=
  ∀ cw : CommandWord,
    (opField cw = 2#4 → ∃ off len : Int, decode cw = .legal (.update off len) ∧
      off = (if 2147483648 ≤ cw.toNat / 4294967296 % 4294967296
        then (cw.toNat / 4294967296 % 4294967296 : Int) - 4294967296
        else (cw.toNat / 4294967296 % 4294967296 : Int)) ∧
      len = (if 2147483648 ≤ cw.toNat % 4294967296
        then (cw.toNat % 4294967296 : Int) - 4294967296
        else (cw.toNat % 4294967296 : Int)) ∧
      (off < 0 ∨ len < 0 → ∀ bufLen, inBounds off len bufLen = false)) ∧
    (opField cw = 4#4 → ∃ v : DWord, decode cw = .legal (.setbitcount v) ∧
      v.toNat = cw.toNat % 18446744073709551616)

/-- R69: the worked encodings, in both directions, the two illegal words, and the fault of `update 5, -1`. -/
def Obligations.WorkedEncodings : Prop :=
  encode .reset = 0x10000000000000000#68 ∧ decode 0x10000000000000000#68 = .legal .reset ∧
  encode (.update 0 3) = 0x20000000000000003#68 ∧ decode 0x20000000000000003#68 = .legal (.update 0 3) ∧
  encode (.update 5 (-1)) = 0x200000005FFFFFFFF#68 ∧ decode 0x200000005FFFFFFFF#68 = .legal (.update 5 (-1)) ∧
  encode .digest = 0x30000000000000000#68 ∧ decode 0x30000000000000000#68 = .legal .digest ∧
  encode (.setbitcount 0x18#64) = 0x40000000000000018#68 ∧
  decode 0x40000000000000018#68 = .legal (.setbitcount 0x18#64) ∧
  decode 0x30000000000000001#68 = .illegal .operandNotZero ∧
  decode 0x70000000000000000#68 = .illegal .reservedOp ∧
  ∀ s : State, exec (.update 5 (-1)) s = .next (boundsFaultEntry s)

/-- R62, R63, 60_exceptions.md R118: dispatch of a word with a reserved op, or of a format N word with a nonzero operand,
sets FAULT, records CAUSE 2 if no fault was recorded, and changes no state other than STATUS. -/
def Obligations.IllegalWordRecordsIllegalCommand : Prop :=
  ∀ (s : State) (cw : CommandWord),
    (opField cw = 0#4 ∨ 5 ≤ (opField cw).toNat ∨ ((opField cw = 1#4 ∨ opField cw = 3#4) ∧ opndField cw ≠ 0#64)) →
    ∃ st : BitVec 8,
      dispatchCommand cw s = .next { s with STATUS := st } ∧
      statusFault st = true ∧
      statusCause st = (if statusFault s.STATUS then statusCause s.STATUS else 2#2) ∧
      statusDvalid st = statusDvalid s.STATUS ∧
      statusReserved st = statusReserved s.STATUS

/-- R67, R68: a line the assembler accepts is one of the stated forms, mnemonics in either case and every value in its
range; the words emitted decode to exactly the commands of that form, in order, and each is well-formed. How a line is cut
into tokens and how a number is written are log 13. -/
def Obligations.AssemblerEmitsLegalWords : Prop :=
  ∀ (line : List Char) (ws : List CommandWord), assemble line = .ok ws →
    ∃ is : List Instr,
      asmLine (asmTokens (dropComment line) []) = .ok is ∧
      (∀ i ∈ is, i.wellFormed = true) ∧
      ws.map decode = is.map Decoded.legal ∧
      ((asmTokens (dropComment line) [] = [] ∧ is = []) ∨
       (∃ m, asmTokens (dropComment line) [] = [m] ∧
         ((m.map lowerChar = ['r', 'e', 's', 'e', 't'] ∧ is = [.reset]) ∨
          (m.map lowerChar = ['d', 'i', 'g', 'e', 's', 't'] ∧ is = [.digest]) ∨
          (m.map lowerChar = ['n', 'o', 'p'] ∧ is = [.update 0 0]))) ∨
       (∃ m v n, asmTokens (dropComment line) [] = [m, v] ∧
         m.map lowerChar = ['s', 'e', 't', 'b', 'i', 't', 'c', 'o', 'u', 'n', 't'] ∧
         unsignedNumber v = some n ∧ n < 18446744073709551616 ∧ is = [.setbitcount (BitVec.ofNat 64 n)]) ∨
       (∃ m off len o l, asmTokens (dropComment line) [] = [m, off, [','], len] ∧
         signedNumber off = some o ∧ signedNumber len = some l ∧
         -2147483648 ≤ o ∧ o ≤ 2147483647 ∧ -2147483648 ≤ l ∧ l ≤ 2147483647 ∧
         ((m.map lowerChar = ['u', 'p', 'd', 'a', 't', 'e'] ∧ is = [.update o l]) ∨
          (m.map lowerChar = ['h', 'a', 's', 'h'] ∧ is = [.reset, .update o l, .digest]))))

/-- R67, R68: a number outside its field is refused and not truncated, and the pseudo-commands expand as stated. That the
refusal is of the kind outOfRange, and how a number is written (signedNumber, unsignedNumber), are the model's choice,
log 13. -/
def Obligations.AssemblerRangesAndPseudoCommands : Prop :=
  (∀ (off len : List Char) (o l : Int), signedNumber off = some o → signedNumber len = some l →
    asmLine [['u', 'p', 'd', 'a', 't', 'e'], off, [','], len] =
      (if -2147483648 ≤ o ∧ o ≤ 2147483647 ∧ -2147483648 ≤ l ∧ l ≤ 2147483647 then .ok [.update o l]
       else .error .outOfRange) ∧
    asmLine [['h', 'a', 's', 'h'], off, [','], len] =
      (if -2147483648 ≤ o ∧ o ≤ 2147483647 ∧ -2147483648 ≤ l ∧ l ≤ 2147483647 then
        .ok [.reset, .update o l, .digest]
       else .error .outOfRange)) ∧
  (∀ (v : List Char) (n : Nat), unsignedNumber v = some n →
    asmLine [['s', 'e', 't', 'b', 'i', 't', 'c', 'o', 'u', 'n', 't'], v] =
      (if n < 18446744073709551616 then .ok [.setbitcount (BitVec.ofNat 64 n)] else .error .outOfRange)) ∧
  asmLine [['n', 'o', 'p']] = .ok [.update 0 0] ∧
  ∀ s : State, exec (.update 0 0) s = .next s

/-! ### Arithmetic of the rounds -/

/-- 43_compress.md R100, R101, R102, R111, R112: bit by bit, f_ch selects, f_parity is the sum, f_maj is the majority,
and the other spellings of f_ch and f_maj agree. -/
def Obligations.PassFunctionsBitByBit : Prop :=
  ∀ (B C D : Word),
    (∀ i : Nat, i < 32 →
      (fCh B C D).getLsbD i = (if B.getLsbD i then C.getLsbD i else D.getLsbD i) ∧
      (fParity B C D).getLsbD i = ((B.getLsbD i ^^ C.getLsbD i) ^^ D.getLsbD i) ∧
      (fMaj B C D).getLsbD i =
        decide (2 ≤ (B.getLsbD i).toNat + (C.getLsbD i).toNat + (D.getLsbD i).toNat)) ∧
    fCh B C D = ((B &&& C) ||| (~~~B &&& D)) ∧
    fMaj B C D = ((B &&& C) ||| (B &&& D) ||| (C &&& D))

/-- 00_scope.md R12 and 43_compress.md R99, R103, R104, R105: round t of each of the four passes, with its function, its
constant and the register shift; rotl32 is the 32-bit left rotation. -/
def Obligations.RoundOfEachPass : Prop :=
  ∀ (w : Word) (v : Working) (t : Nat), t < 80 →
    ∃ (f k : Word),
      (t < 20 → f = (((v.C ^^^ v.D) &&& v.B) ^^^ v.D) ∧ k = 0x5A827999#32) ∧
      (20 ≤ t → t < 40 → f = (v.B ^^^ v.C ^^^ v.D) ∧ k = 0x6ED9EBA1#32) ∧
      (40 ≤ t → t < 60 → f = ((v.B &&& v.C) ||| (v.D &&& (v.B ||| v.C))) ∧ k = 0x8F1BBCDC#32) ∧
      (60 ≤ t → f = (v.B ^^^ v.C ^^^ v.D) ∧ k = 0xCA62C1D6#32) ∧
      roundStep t w v =
        { A := v.A.rotateLeft 5 + f + v.E + w + k, B := v.A, C := v.B.rotateLeft 30, D := v.C, E := v.D }

/-- 43_compress.md R97: the first sixteen words stay, and every later word is the recurrence over words of the EXPANDED
schedule, so the old W[16..79] are not read. -/
def Obligations.ScheduleExpansionRecurrence : Prop :=
  ∀ W : Schedule,
    (∀ t, t < 16 → scheduleAt (expandSchedule W) t = scheduleAt W t) ∧
    (∀ t, 16 ≤ t → t < 80 →
      scheduleAt (expandSchedule W) t =
        (scheduleAt (expandSchedule W) (t - 3) ^^^ scheduleAt (expandSchedule W) (t - 8) ^^^
          scheduleAt (expandSchedule W) (t - 14) ^^^ scheduleAt (expandSchedule W) (t - 16)).rotateLeft 1)

/-! ### COMPRESS -/

/-- 43_compress.md R96, R108, R109, R114: COMPRESS adds the pipeline's output into H, zeroes W, leaves lenW and bitCount, and
its H depends on H and W[0..15] alone. -/
def Obligations.CompressDependsOnHashAndBlockAlone : Prop :=
  ∀ m : Message,
    (∃ v : Working, v = runRounds (expandSchedule m.W) (initWorking m.H) ∧
      (compress m).H = #v[m.H[0] + v.A, m.H[1] + v.B, m.H[2] + v.C, m.H[3] + v.D, m.H[4] + v.E]) ∧
    (∀ t, t < 80 → scheduleAt (compress m).W t = 0#32) ∧
    (compress m).lenW = m.lenW ∧ (compress m).bitCount = m.bitCount ∧
    ∀ n : Message, n.H = m.H → (∀ j, j < 16 → scheduleAt n.W j = scheduleAt m.W j) →
      (compress n).H = (compress m).H ∧ (compress n).W = (compress m).W

/-- R110: COMPRESS sets H to Compress(H, M), M being the block packed big-endian in W[0..15]. -/
def Obligations.CompressIsThePureFunction : Prop :=
  ∀ (m : Message) (M : List Byte), M.length = 64 →
    (∀ j, j < 16 → scheduleAt m.W j = packWord ((M.drop (4 * j)).take 4)) →
    (compress m).H = pureCompress m.H M

/-- R113, with R111 and R112: the 16-word window, computing each word just before its round and using the other
spellings of the pass functions, leaves the same hash. -/
def Obligations.WindowFormComputesTheSameHash : Prop :=
  ∀ m : Message, (compress m).H = windowCompress m.H m.W

/-! ### ABSORB -/

/-- 41_intake.md R75, R76, R77: the byte enters the low end of word lenW / 4, the other words stay; below the boundary
nothing else but the counters moves; at the boundary the block with the byte in W[15] is compressed, W is 0 and lenW is
0; bitCount grows by 8 either way. -/
def Obligations.AbsorbPlacesCountsAndCompresses : Prop :=
  ∀ (m : Message) (b : Byte),
    m.lenW.val / 4 < 16 ∧ (absorb m b).bitCount = m.bitCount + 8#64 ∧
    ∃ W' : Schedule,
      (∀ t, t < 80 → scheduleAt W' t =
        if t = m.lenW.val / 4 then (scheduleAt m.W t <<< 8) ||| b.setWidth 32 else scheduleAt m.W t) ∧
      (m.lenW.val < 63 →
        (absorb m b).W = W' ∧ (absorb m b).H = m.H ∧ (absorb m b).lenW.val = m.lenW.val + 1) ∧
      (m.lenW.val = 63 →
        (absorb m b).H = (compress { m with W := W' }).H ∧ (absorb m b).lenW.val = 0 ∧
        ∀ t, t < 80 → scheduleAt (absorb m b).W t = 0#32)

/-- 10_state.md R27, R28, 20_memory.md R42, 43_compress.md R110: from a state that holds the bytes `p` of its block, absorbing
`bs` folds every whole block of `p ++ bs` into H in order, holds the rest packed as R27 says, and adds 8 a byte. -/
def Obligations.AbsorbingFoldsBlocksAndPacksTheRest : Prop :=
  ∀ (m : Message) (p bs : List Byte), m.Holds p →
    (absorbAll m bs).Holds ((p ++ bs).drop (64 * ((p ++ bs).length / 64))) ∧
    (absorbAll m bs).H = compressBlocks m.H (p ++ bs) ∧
    (absorbAll m bs).bitCount = m.bitCount + BitVec.ofNat 64 (8 * bs.length)

/-- 41_intake.md R73, 42_finalize.md R80, R87, 70_reset_and_hazards.md R144: how many ABSORBs the padding takes, and how
many of any sequence of ABSORBs, and of the padding, run COMPRESS. -/
def Obligations.CompressionCounts : Prop :=
  (∀ (m : Message) (bs : List Byte),
    compressCount m bs = (m.lenW.val + bs.length) / 64 ∧
    (absorbAll m bs).lenW.val = (m.lenW.val + bs.length) % 64) ∧
  (∀ (m : Message) (c : DWord),
    (padding m.lenW.val c).length = 9 + (119 - m.lenW.val) % 64 ∧
    compressCount m (padding m.lenW.val c) = (if m.lenW.val ≤ 55 then 1 else 2))

/-! ### RESET -/

/-- 41_intake.md R71, R78: RESET completes from every state, re-initialises the message state whatever it was, clears
POISON, and leaves STATUS, DOUT and everything else. -/
def Obligations.ResetReinitialisesTheMessageState : Prop :=
  ∀ s : State, exec .reset s = .next { s with
    msg := { H := #v[0x67452301#32, 0xEFCDAB89#32, 0x98BADCFE#32, 0x10325476#32, 0xC3D2E1F0#32]
             W := Vector.replicate 80 0#32
             lenW := 0
             bitCount := 0#64 }
    POISON := false }

/-- 41_intake.md R78: whatever an UPDATE before a RESET did, in bounds or not, from a poisoned state or not, the digest
and the message state after the RESET are those without it. -/
def Obligations.ResetDiscardsWhatWasAbsorbed : Prop :=
  ∀ (s : State) (off len off' len' : Int),
    0 ≤ off' → 0 ≤ len' → off' + len' ≤ s.buf.len → s.inFlight = [] →
    ∃ t u : State,
      execAll [.update off len, .reset, .update off' len', .digest] s = .next t ∧
      execAll [.reset, .update off' len', .digest] s = .next u ∧
      t.DOUT = u.DOUT ∧ t.msg = u.msg ∧ t.POISON = u.POISON

/-! ### UPDATE -/

/-- 41_intake.md R72, R73, 20_memory.md R41: in bounds, with no host write in progress and POISON = 0, UPDATE completes
and absorbs exactly the bytes of the range in ascending order; nothing else changes. -/
def Obligations.UpdateAbsorbsTheRange : Prop :=
  ∀ (s : State) (off len : Int), 0 ≤ off → 0 ≤ len → off + len ≤ s.buf.len →
    s.POISON = false → s.inFlight = [] →
    ∃ bs : List Byte, bs.length = len.toNat ∧ (∀ i, i < len.toNat → s.buf.read (off.toNat + i) = bs[i]?) ∧
      exec (.update off len) s = .next { s with msg := absorbAll s.msg bs }

/-- 20_memory.md R52, 93 U5: with host writes in progress an in-bounds UPDATE completes; only a byte a write touches may
differ from what buf holds. The draw counter is the model's own (log 5, log 6). -/
def Obligations.OnlyRacedBytesAreFree : Prop :=
  ∀ (s : State) (off len : Int), 0 ≤ off → 0 ≤ len → off + len ≤ s.buf.len → s.POISON = false →
    ∃ (bs : List Byte) (n : Nat), bs.length = len.toNat ∧
      (∀ i, i < len.toNat → (∀ c ∈ s.inFlight, c.1 ≠ off.toNat + i) → s.buf.read (off.toNat + i) = bs[i]?) ∧
      exec (.update off len) s = .next { s with msg := absorbAll s.msg bs, draws := n }

/-- 41_intake.md R79: while POISON = 1 an in-bounds UPDATE completes, POISON and everything but the message state stays,
and a length of 0 changes nothing. That the message state is drawn anew is log 10. -/
def Obligations.UpdateWhilePoisonedStaysPoisoned : Prop :=
  ∀ (s : State) (off len : Int), 0 ≤ off → 0 ≤ len → off + len ≤ s.buf.len → s.POISON = true →
    ∃ (m : Message) (n : Nat), exec (.update off len) s = .next { s with msg := m, draws := n } ∧
      (len = 0 → m = s.msg ∧ n = s.draws)

/-- 60_exceptions.md R117, R119, R123, 41_intake.md R72: out of bounds, UPDATE completes with FAULT set, CAUSE 1 if no fault
was recorded, POISON set, DOUT and DVALID unchanged; no byte of buf matters. The message state is free (R117 leaves it
unspecified); that it is a draw by the model's counter, the same one whatever buf holds, is the model's choice, log 5. -/
def Obligations.UpdateOutOfBoundsTakesBoundsFault : Prop :=
  ∀ (s : State) (off len : Int), ¬ (0 ≤ off ∧ 0 ≤ len ∧ off + len ≤ (s.buf.len : Int)) →
    ∃ (m : Message) (n : Nat) (st : BitVec 8),
      exec (.update off len) s = .next { s with msg := m, draws := n, POISON := true, STATUS := st } ∧
      statusFault st = true ∧
      statusCause st = (if statusFault s.STATUS then statusCause s.STATUS else 1#2) ∧
      statusDvalid st = statusDvalid s.STATUS ∧
      statusReserved st = statusReserved s.STATUS ∧
      ∀ b : Memory, b.len = s.buf.len →
        exec (.update off len) { s with buf := b } =
          .next { s with buf := b, msg := m, draws := n, POISON := true, STATUS := st }

/-- 30_encoding.md R64, 41_intake.md R73: an UPDATE of no byte, at any offset in 0..bufLen, changes no state at all. -/
def Obligations.UpdateOfNoByteChangesNothing : Prop :=
  ∀ (s : State) (off : Int), 0 ≤ off → off ≤ s.buf.len → exec (.update off 0) s = .next s

/-- 41_intake.md R74: UPDATEs of consecutive pieces of a message, wherever in buf each piece lies, leave the state one
UPDATE of the message leaves. (While POISON = 1 the message state is unspecified, so POISON = 0 is assumed.) -/
def Obligations.ChunkingInvariance : Prop :=
  ∀ (s : State) (pieces : List (Nat × Nat)) (off len : Nat),
    s.POISON = false → s.inFlight = [] → off + len ≤ s.buf.len →
    (∀ p ∈ pieces, p.1 + p.2 ≤ s.buf.len) →
    pieces.flatMap (fun p => s.buf.slice p.1 p.2) = s.buf.slice off len →
    execAll (pieces.map fun p => .update p.1 p.2) s = exec (.update off len) s

/-- 20_memory.md R41: no byte of buf outside the range is read. Where the spec leaves a value unspecified (after a
BoundsFault, while POISON = 1, a raced byte) the two states agree because the model draws it by its counter, the model's
choice: log 5, log 6, log 10. -/
def Obligations.OnlyTheRangeIsRead : Prop :=
  ∀ (s t : State) (b : Memory) (off len : Int), b.len = s.buf.len →
    (∀ i : Nat, off ≤ i → (i : Int) < off + len → b.read i = s.buf.read i) →
    exec (.update off len) s = .next t →
    exec (.update off len) { s with buf := b } = .next { t with buf := b }

/-! ### DIGEST -/

/-- 42_finalize.md R80, R82, R83, R84: with k the number of zeros, the padding loop ends with lenW = 56 after exactly k of
them, the bytes absorbed are 0x80, the zeros and the length captured before them, they complete one block or two, and
lenW is 0 after the last. -/
def Obligations.PaddingIsAbsorbedAndCompletesTheBlock : Prop :=
  ∀ m : Message, ∃ k : Nat,
    k = (if m.lenW.val ≤ 55 then 55 - m.lenW.val else 119 - m.lenW.val) ∧
    (k : Int) = (55 - (m.lenW.val : Int)) % 64 ∧ k ≤ 63 ∧
    m.lenW.val + 9 + k = (if m.lenW.val ≤ 55 then 64 else 128) ∧
    padZeros 63 (absorb m 0x80#8) = absorbAll (absorb m 0x80#8) (List.replicate k 0x00#8) ∧
    (padZeros 63 (absorb m 0x80#8)).lenW.val = 56 ∧
    padMessage m = absorbAll m ([0x80#8] ++ List.replicate k 0x00#8 ++ be64 m.bitCount) ∧
    (padMessage m).lenW.val = 0

/-- 42_finalize.md R85, 20_memory.md R44: the drain gives the bytes of each word, high-order first, words in order, and
leaves every word 0. -/
def Obligations.DrainIsBigEndianAndZeroes : Prop :=
  ∀ H : Hash,
    (drainHash H).1 = be32 H[0] ++ be32 H[1] ++ be32 H[2] ++ be32 H[3] ++ be32 H[4] ∧
    (drainHash H).2 = #v[0#32, 0#32, 0#32, 0#32, 0#32]

/-- 42_finalize.md R81, R86, R90: DIGEST completes from every state, resets the message state, sets DVALID, writes all of
DOUT, and changes nothing else of the engine or of the host; with POISON = 0 the bytes are those of H after the padding.
The draw counter is the model's own (log 5). -/
def Obligations.DigestCompletesAndResets : Prop :=
  ∀ s : State, ∃ (d : Digest) (n : Nat) (st : BitVec 8),
    exec .digest s = .next { s with
      msg := { H := #v[0x67452301#32, 0xEFCDAB89#32, 0x98BADCFE#32, 0x10325476#32, 0xC3D2E1F0#32]
               W := Vector.replicate 80 0#32
               lenW := 0
               bitCount := 0#64 }
      POISON := false, DOUT := some d, STATUS := st, draws := n } ∧
    statusDvalid st = true ∧ statusFault st = statusFault s.STATUS ∧ statusCause st = statusCause s.STATUS ∧
    statusReserved st = statusReserved s.STATUS ∧
    (s.POISON = false → d.toList = digestBytes (padMessage s.msg).H ∧ n = s.draws)

/-- 42_finalize.md R88: the closed form of DIGEST over the bytes of the current block, with S split into its blocks and
each compressed in order. -/
def Obligations.DigestClosedForm : Prop :=
  ∀ (s : State) (p : List Byte), s.POISON = false → s.msg.Holds p →
    ∃ d : Digest,
      exec .digest s = .next { s with
        msg := Message.fresh, DOUT := some d, STATUS := statusWithDvalid s.STATUS } ∧
      d.toList = digestBytes (compressBlocks s.msg.H (p ++ padding p.length s.msg.bitCount))

/-- 42_finalize.md R88, R89, R90, 30_encoding.md R68: RESET, UPDATE, DIGEST issued on the command port, from ANY state of the
engine with no host write in progress, give the SHA-1 digest of the range alone and leave the message state fresh. -/
def Obligations.HashCommandsGiveSha1OfTheRange : Prop :=
  ∀ (s : State) (off len : Int), 0 ≤ off → 0 ≤ len → off + len ≤ s.buf.len →
    (Instr.update off len).wellFormed = true → s.inFlight = [] →
    s.port = [.command (encode .reset), .command (encode (.update off len)), .command (encode .digest)] →
    ∃ d : Digest,
      Host.Core.run Sys2Proof.core 3 s = .next { s with
        msg := Message.fresh, POISON := false, DOUT := some d, STATUS := statusWithDvalid s.STATUS, port := [] } ∧
      d.toList = sha1 (s.buf.slice off.toNat len.toNat)

/-- 70_reset_and_hazards.md R136, R146, 42_finalize.md R88: from a launch state with a buffer of bytes, one UPDATE of the whole
buffer and a DIGEST, with no host write in progress, end without a fault, with DVALID, and with the SHA-1 digest of the
bytes in DOUT. -/
def Obligations.LaunchedRunGivesTheDigestOfTheBuffer : Prop :=
  ∀ (s : State) (bytes : List Byte), FreshEngine s → HostBuffer bytes s → NoRace s → bytes.length ≤ 2147483647 →
    s.port = [.command (encode (.update 0 bytes.length)), .command (encode .digest)] →
    ∃ (t : State) (d : Digest), Host.Core.run Sys2Proof.core 2 s = .next t ∧ NoFault t ∧ DoutValid t ∧
      t.DOUT = some d ∧ d.toList = sha1 bytes

/-- 42_finalize.md R89 and 95_test_vectors.md V-S1 to V-S3: the three digests the source states. -/
def Obligations.SourceVectors : Prop :=
  sha1 [] = [0xda#8, 0x39#8, 0xa3#8, 0xee#8, 0x5e#8, 0x6b#8, 0x4b#8, 0x0d#8, 0x32#8, 0x55#8, 0xbf#8, 0xef#8, 0x95#8,
    0x60#8, 0x18#8, 0x90#8, 0xaf#8, 0xd8#8, 0x07#8, 0x09#8] ∧
  sha1 [0x61#8, 0x62#8, 0x63#8] = [0xa9#8, 0x99#8, 0x3e#8, 0x36#8, 0x47#8, 0x06#8, 0x81#8, 0x6a#8, 0xba#8, 0x3e#8,
    0x25#8, 0x71#8, 0x78#8, 0x50#8, 0xc2#8, 0x6c#8, 0x9c#8, 0xd0#8, 0xd8#8, 0x9d#8] ∧
  sha1 ([0x61#8, 0x62#8, 0x63#8, 0x64#8, 0x62#8, 0x63#8, 0x64#8, 0x65#8, 0x63#8, 0x64#8, 0x65#8, 0x66#8, 0x64#8,
      0x65#8, 0x66#8, 0x67#8, 0x65#8, 0x66#8, 0x67#8, 0x68#8, 0x66#8, 0x67#8, 0x68#8, 0x69#8, 0x67#8, 0x68#8, 0x69#8,
      0x6a#8] ++
     [0x68#8, 0x69#8, 0x6a#8, 0x6b#8, 0x69#8, 0x6a#8, 0x6b#8, 0x6c#8, 0x6a#8, 0x6b#8, 0x6c#8, 0x6d#8, 0x6b#8, 0x6c#8,
      0x6d#8, 0x6e#8, 0x6c#8, 0x6d#8, 0x6e#8, 0x6f#8, 0x6d#8, 0x6e#8, 0x6f#8, 0x70#8, 0x6e#8, 0x6f#8, 0x70#8,
      0x71#8]) =
    [0x84#8, 0x98#8, 0x3e#8, 0x44#8, 0x1c#8, 0x3b#8, 0xd2#8, 0x6e#8, 0xba#8, 0xae#8, 0x4a#8, 0xa1#8, 0xf9#8, 0x51#8,
      0x29#8, 0xe5#8, 0xe5#8, 0x46#8, 0x70#8, 0xf1#8]

/-! ### SETBITCOUNT -/

/-- 42_finalize.md R91, R93: SETBITCOUNT completes for every value and writes bitCount and nothing else. -/
def Obligations.SetbitcountWritesBitCountAlone : Prop :=
  ∀ (v : DWord) (s : State),
    exec (.setbitcount v) s = .next { s with
      msg := { H := s.msg.H, W := s.msg.W, lenW := s.msg.lenW, bitCount := v } }

/-- 42_finalize.md R92, 70_reset_and_hazards.md R140: after SETBITCOUNT and k bytes the length field of DIGEST is the value
plus 8k modulo 2^64, on the block and the hash the bytes alone give. -/
def Obligations.LengthFieldAfterSetbitcount : Prop :=
  ∀ (s : State) (v : DWord) (off len : Int) (p : List Byte), 0 ≤ off → 0 ≤ len → off + len ≤ s.buf.len →
    s.POISON = false → s.inFlight = [] → s.msg.Holds p →
    ∃ (t : State) (d : Digest),
      execAll [.setbitcount v, .update off len, .digest] s = .next t ∧ t.DOUT = some d ∧
      d.toList = digestBytes (compressBlocks s.msg.H
        (p ++ s.buf.slice off.toNat len.toNat ++
          padding ((p.length + len.toNat) % 64) (v + BitVec.ofNat 64 (8 * len.toNat))))

/-! ### Power-on reset -/

/-- 70_reset_and_hazards.md R132, R139, 10_state.md R38, R39: the power-on reset input leaves the state of a freshly
constructed engine, from every state. R132 calls DOUT unspecified; that it then has no value is log 1 (R39, R139). -/
def Obligations.PowerOnResetLeavesAFreshEngine : Prop :=
  ∀ (s : State) (rest : List HostAction), s.port = .powerOn :: rest →
    ∃ t, step s = .next t ∧
      t.msg.H = #v[0x67452301#32, 0xEFCDAB89#32, 0x98BADCFE#32, 0x10325476#32, 0xC3D2E1F0#32] ∧
      (∀ j, j < 80 → scheduleAt t.msg.W j = 0#32) ∧ t.msg.lenW.val = 0 ∧ t.msg.bitCount = 0#64 ∧
      t.POISON = false ∧ t.STATUS = 0x00#8 ∧ t.DOUT = none

/-- 70_reset_and_hazards.md R133: RESET and power-on reset differ in STATUS and DOUT alone, and a RESET on a fresh engine
changes nothing. That power-on reset leaves the host's side and the draw counter is the model's choice (log 11); that it
takes DOUT's value away is log 1. -/
def Obligations.ResetAndPowerOnDifferInStatusAndDout : Prop :=
  (∀ (s t u : State) (rest : List HostAction), s.port = .powerOn :: rest → step s = .next t →
    exec .reset { s with port := rest } = .next u →
    t = { u with STATUS := 0x00#8, DOUT := none } ∧ u.STATUS = s.STATUS ∧ u.DOUT = s.DOUT) ∧
  ∀ s : State, FreshEngine s → exec .reset s = .next s

/-- 10_state.md R23: the initial constants are what RESET, power-on reset and every DIGEST leave in H. -/
def Obligations.InitialConstantsAfterEveryReset : Prop :=
  ∀ s : State,
    (∀ t, exec .reset s = .next t ∨ exec .digest s = .next t ∨ hostStep .powerOn s = .next t →
      t.msg.H = #v[0x67452301#32, 0xEFCDAB89#32, 0x98BADCFE#32, 0x10325476#32, 0xC3D2E1F0#32]) ∧
    State.reset.msg.H = #v[0x67452301#32, 0xEFCDAB89#32, 0x98BADCFE#32, 0x10325476#32, 0xC3D2E1F0#32]

/-! ### The step and the whole machine -/

/-- 41_intake.md R70, 30_encoding.md R55, R56: the step takes the command word at the head of the port and dispatches it;
when it decodes to a command, that is the command's meaning, and otherwise IllegalCommand. The host writes that were in
progress land after it (log 6); with none in progress the step is the dispatch itself. -/
def Obligations.StepRunsTheDecodedCommand : Prop :=
  ∀ (s : State) (cw : CommandWord) (rest : List HostAction), s.port = .command cw :: rest →
    (∀ i, decode cw = .legal i →
      step s = completeCommand (exec i { s with port := rest }) ∧
      (s.inFlight = [] → step s = exec i { s with port := rest })) ∧
    (∀ e, decode cw = .illegal e →
      dispatchCommand cw { s with port := rest } = .next (illegalCommandEntry { s with port := rest }) ∧
      step s = .next (landWrites (illegalCommandEntry { s with port := rest })) ∧
      (s.inFlight = [] → step s = .next (illegalCommandEntry { s with port := rest })))

/-- 60_exceptions.md R131: with nothing issued the engine is idle with its state held. -/
def Obligations.IdleStepHoldsTheState : Prop :=
  ∀ s : State, s.port = [] → step s = .next s

/-- 10_state.md R37, 30_encoding.md R56: every command word, legal or not, from every state, completes and leaves the
engine at the next action of the port. -/
def Obligations.EveryCommandCompletes : Prop :=
  (∀ (i : Instr) (s : State), ∃ t, exec i s = .next t) ∧
  ∀ (s : State) (cw : CommandWord) (rest : List HostAction), s.port = .command cw :: rest →
    ∃ t, step s = .next t ∧ t.port = rest

/-- 00_scope.md R14, 20_memory.md R47: no command writes host memory, and none touches the rest of the host's side. -/
def Obligations.CommandsNeverWriteTheBuffer : Prop :=
  ∀ (i : Instr) (s t : State), exec i s = .next t →
    (∀ a : Nat, t.buf.read a = s.buf.read a) ∧ t.buf = s.buf ∧ t.port = s.port ∧ t.inFlight = s.inFlight ∧
    t.received = s.received

/-- 10_state.md R31, R36: no command but DIGEST writes DOUT or DVALID. -/
def Obligations.OnlyDigestWritesDout : Prop :=
  ∀ (s t : State), step s = .next t →
    (∀ rest, s.port ≠ .powerOn :: rest) →
    (∀ cw rest, s.port = .command cw :: rest → decode cw ≠ .legal .digest) →
    t.DOUT = s.DOUT ∧ statusDvalid t.STATUS = statusDvalid s.STATUS

/-- 10_state.md R32, 60_exceptions.md R123, R124: until power-on reset FAULT and DVALID stay set once set, and CAUSE keeps
the first fault's code. -/
def Obligations.StatusIsStickyUntilPowerOn : Prop :=
  ∀ (s t : State), step s = .next t → (∀ rest, s.port ≠ .powerOn :: rest) →
    (statusFault s.STATUS = true → statusFault t.STATUS = true ∧ statusCause t.STATUS = statusCause s.STATUS) ∧
    (statusDvalid s.STATUS = true → statusDvalid t.STATUS = true)

/-- 60_exceptions.md R115, R117, R118, R120: a step that raises a fault is an out-of-bounds UPDATE or an illegal word, and
the cause it records is that one's. -/
def Obligations.OnlyTheTwoFaultsAreRaised : Prop :=
  ∀ (s t : State), step s = .next t → statusFault s.STATUS = false → statusFault t.STATUS = true →
    ∃ cw rest, s.port = .command cw :: rest ∧
      ((∃ off len, decode cw = .legal (.update off len) ∧ ¬ (0 ≤ off ∧ 0 ≤ len ∧ off + len ≤ (s.buf.len : Int)) ∧
          statusCause t.STATUS = 1#2) ∨
       (∃ e, decode cw = .illegal e ∧ statusCause t.STATUS = 2#2))

/-- 10_state.md R33, 60_exceptions.md R117, R118, R124: POISON is set by a BoundsFault alone, and cleared by RESET, by
DIGEST and by power-on reset alone: an illegal word, a host read, a new buffer, a host write and an idle step leave it. -/
def Obligations.PoisonLifeCycle : Prop :=
  (∀ (i : Instr) (s t : State), exec i s = .next t →
    (t.POISON = true ↔
      (∃ off len, i = .update off len ∧ ¬ (0 ≤ off ∧ 0 ≤ len ∧ off + len ≤ (s.buf.len : Int))) ∨
      (s.POISON = true ∧ i ≠ .reset ∧ i ≠ .digest))) ∧
  ∀ (s t : State), step s = .next t →
    ((∀ rest, s.port ≠ .powerOn :: rest) → (∀ cw rest i, s.port = .command cw :: rest → decode cw ≠ .legal i) →
      t.POISON = s.POISON) ∧
    ∀ rest, s.port = .powerOn :: rest → t.POISON = false

/-- The state after power-on reset meets the invariant of Safety.lean (10_state.md R27, R32, R33, R38). -/
def Obligations.ResetMeetsTheInvariant : Prop := Inv State.reset

/-- 10_state.md R27, R32, R33, 93 U8: every step keeps the invariant. -/
def Obligations.StepKeepsTheInvariant : Prop :=
  ∀ s t : State, Inv s → step s = .next t → Inv t

/-- 60_exceptions.md R124, 70_reset_and_hazards.md R146: a run without power-on reset that ends with FAULT = 0 never had a
fault and never was poisoned after its start. -/
def Obligations.RunEndingWithoutFaultNeverFaulted : Prop :=
  ∀ (n k : Nat) (s t u : State), (∀ a ∈ s.port, a ≠ .powerOn) → Inv s →
    Host.Core.run Sys2Proof.core n s = .next t → Host.Core.run Sys2Proof.core k t = .next u → NoFault u →
    NoFault t ∧ t.POISON = false

/-! ### The host's side -/

/-- 10_state.md R31, R32, 70_reset_and_hazards.md R139, 93 U3: a host read of DOUT answers its value once a DIGEST has
completed and no value before (log 8); a read of STATUS answers its three fields and zeros; both complete and neither
changes the engine. -/
def Obligations.HostReadsAnswerTheRegisters : Prop :=
  ∀ s : State,
    (∀ d, statusDvalid s.STATUS = true → s.DOUT = some d →
      hostStep .readDout s = .next { s with received := .dout (some d) :: s.received }) ∧
    (statusDvalid s.STATUS = false →
      hostStep .readDout s = .next { s with received := .dout none :: s.received }) ∧
    ∃ b : BitVec 8,
      hostStep .readStatus s = .next { s with received := .status b :: s.received } ∧
      statusReserved b = 0#4 ∧ statusFault b = statusFault s.STATUS ∧ statusCause b = statusCause s.STATUS ∧
      statusDvalid b = statusDvalid s.STATUS

/-- 20_memory.md R51, 70_reset_and_hazards.md R139: a host read of DOUT after a DIGEST has completed returns the digest
that DIGEST wrote. -/
def Obligations.ReadAfterDigestReturnsItsDigest : Prop :=
  ∀ (s : State) (rest : List HostAction), s.POISON = false →
    s.port = .command (encode .digest) :: .readDout :: rest →
    ∃ (t : State) (d : Digest), Host.Core.run Sys2Proof.core 2 s = .next t ∧
      t.received = .dout (some d) :: s.received ∧ t.port = rest ∧ d.toList = digestBytes (padMessage s.msg).H

/-- 20_memory.md R50, R54: a host write that completes before an UPDATE is issued is the byte that UPDATE absorbs, and a
write after it changes nothing of the engine. -/
def Obligations.CompletedHostWriteIsAbsorbed : Prop :=
  ∀ (s : State) (i : Nat) (b c : Byte), s.buf.wf = true → i < s.buf.len → i ≤ 2147483647 → s.POISON = false →
    s.inFlight = [] →
    s.port = [.writeBuf i b, .command (encode (.update i 1)), .writeBuf i c] →
    ∃ t, Host.Core.run Sys2Proof.core 3 s = .next t ∧ t.msg = absorb s.msg b ∧ t.STATUS = s.STATUS ∧
      t.DOUT = s.DOUT ∧ t.POISON = false ∧ t.buf.read i = some c ∧
      ∀ j : Nat, j ≠ i → t.buf.read j = s.buf.read j

/-- 00_scope.md R8, R14: a buffer holds any list of bytes, reads give its bytes and nothing outside it, and the canonical
form of a buffer is one (that an unlisted index reads as 0 is the model's way of writing it, log 3). -/
def Obligations.BufferHoldsAnyByteList : Prop :=
  (∀ bs : List Byte, (Memory.ofBytes bs).wf = true ∧ (Memory.ofBytes bs).len = bs.length ∧
    (∀ i, (Memory.ofBytes bs).read i = bs[i]?) ∧ (Memory.ofBytes bs).bytes = bs) ∧
  (∀ m : Memory, m.wf = true → Memory.ofBytes m.bytes = m) ∧
  ∀ m m' : Memory, m.wf = true → m'.wf = true → m.len = m'.len → (∀ i, m.read i = m'.read i) → m = m'
end

