-- ==== Sys2Proof/Laws/State.lean ====
section
/-!
SUPPORT. One lemma per field of State and per update of the shared operations, each true by rfl, so that no later
proof unfolds a record update.
-/

namespace Sys2Proof.Laws

open Sys2Proof.Machine

@[simp] theorem resetMessage_msg (s : State) : (resetMessage s).msg = Message.fresh := rfl
@[simp] theorem resetMessage_DOUT (s : State) : (resetMessage s).DOUT = s.DOUT := rfl
@[simp] theorem resetMessage_STATUS (s : State) : (resetMessage s).STATUS = s.STATUS := rfl
@[simp] theorem resetMessage_POISON (s : State) : (resetMessage s).POISON = false := rfl
@[simp] theorem resetMessage_buf (s : State) : (resetMessage s).buf = s.buf := rfl
@[simp] theorem resetMessage_port (s : State) : (resetMessage s).port = s.port := rfl
@[simp] theorem resetMessage_inFlight (s : State) : (resetMessage s).inFlight = s.inFlight := rfl
@[simp] theorem resetMessage_received (s : State) : (resetMessage s).received = s.received := rfl
@[simp] theorem resetMessage_draws (s : State) : (resetMessage s).draws = s.draws := rfl

@[simp] theorem recordFault_msg (c : FaultCause) (s : State) : (recordFault c s).msg = s.msg := rfl
@[simp] theorem recordFault_DOUT (c : FaultCause) (s : State) : (recordFault c s).DOUT = s.DOUT := rfl
@[simp] theorem recordFault_STATUS (c : FaultCause) (s : State) : (recordFault c s).STATUS = statusRecordFault s.STATUS c := rfl
@[simp] theorem recordFault_POISON (c : FaultCause) (s : State) : (recordFault c s).POISON = s.POISON := rfl
@[simp] theorem recordFault_buf (c : FaultCause) (s : State) : (recordFault c s).buf = s.buf := rfl
@[simp] theorem recordFault_port (c : FaultCause) (s : State) : (recordFault c s).port = s.port := rfl
@[simp] theorem recordFault_inFlight (c : FaultCause) (s : State) : (recordFault c s).inFlight = s.inFlight := rfl
@[simp] theorem recordFault_received (c : FaultCause) (s : State) : (recordFault c s).received = s.received := rfl
@[simp] theorem recordFault_draws (c : FaultCause) (s : State) : (recordFault c s).draws = s.draws := rfl

@[simp] theorem boundsFaultEntry_msg (s : State) : (boundsFaultEntry s).msg = freeMessage s.draws := rfl
@[simp] theorem boundsFaultEntry_DOUT (s : State) : (boundsFaultEntry s).DOUT = s.DOUT := rfl
@[simp] theorem boundsFaultEntry_STATUS (s : State) : (boundsFaultEntry s).STATUS = statusRecordFault s.STATUS .boundsFault := rfl
@[simp] theorem boundsFaultEntry_POISON (s : State) : (boundsFaultEntry s).POISON = true := rfl
@[simp] theorem boundsFaultEntry_buf (s : State) : (boundsFaultEntry s).buf = s.buf := rfl
@[simp] theorem boundsFaultEntry_port (s : State) : (boundsFaultEntry s).port = s.port := rfl
@[simp] theorem boundsFaultEntry_inFlight (s : State) : (boundsFaultEntry s).inFlight = s.inFlight := rfl
@[simp] theorem boundsFaultEntry_received (s : State) : (boundsFaultEntry s).received = s.received := rfl
@[simp] theorem boundsFaultEntry_draws (s : State) : (boundsFaultEntry s).draws = s.draws + 1 := rfl

@[simp] theorem illegalCommandEntry_msg (s : State) : (illegalCommandEntry s).msg = s.msg := rfl
@[simp] theorem illegalCommandEntry_DOUT (s : State) : (illegalCommandEntry s).DOUT = s.DOUT := rfl
@[simp] theorem illegalCommandEntry_STATUS (s : State) : (illegalCommandEntry s).STATUS = statusRecordFault s.STATUS .illegalCommand := rfl
@[simp] theorem illegalCommandEntry_POISON (s : State) : (illegalCommandEntry s).POISON = s.POISON := rfl
@[simp] theorem illegalCommandEntry_buf (s : State) : (illegalCommandEntry s).buf = s.buf := rfl
@[simp] theorem illegalCommandEntry_port (s : State) : (illegalCommandEntry s).port = s.port := rfl
@[simp] theorem illegalCommandEntry_inFlight (s : State) : (illegalCommandEntry s).inFlight = s.inFlight := rfl
@[simp] theorem illegalCommandEntry_received (s : State) : (illegalCommandEntry s).received = s.received := rfl
@[simp] theorem illegalCommandEntry_draws (s : State) : (illegalCommandEntry s).draws = s.draws := rfl

@[simp] theorem powerOnReset_msg (s : State) : (powerOnReset s).msg = Message.fresh := rfl
@[simp] theorem powerOnReset_DOUT (s : State) : (powerOnReset s).DOUT = none := rfl
@[simp] theorem powerOnReset_STATUS (s : State) : (powerOnReset s).STATUS = 0x00#8 := rfl
@[simp] theorem powerOnReset_POISON (s : State) : (powerOnReset s).POISON = false := rfl
@[simp] theorem powerOnReset_buf (s : State) : (powerOnReset s).buf = s.buf := rfl
@[simp] theorem powerOnReset_port (s : State) : (powerOnReset s).port = s.port := rfl
@[simp] theorem powerOnReset_inFlight (s : State) : (powerOnReset s).inFlight = s.inFlight := rfl
@[simp] theorem powerOnReset_received (s : State) : (powerOnReset s).received = s.received := rfl
@[simp] theorem powerOnReset_draws (s : State) : (powerOnReset s).draws = s.draws := rfl

@[simp] theorem landWrites_msg (s : State) : (landWrites s).msg = s.msg := rfl
@[simp] theorem landWrites_DOUT (s : State) : (landWrites s).DOUT = s.DOUT := rfl
@[simp] theorem landWrites_STATUS (s : State) : (landWrites s).STATUS = s.STATUS := rfl
@[simp] theorem landWrites_POISON (s : State) : (landWrites s).POISON = s.POISON := rfl
@[simp] theorem landWrites_buf (s : State) : (landWrites s).buf = s.inFlight.foldl (fun m c => m.write c.1 c.2) s.buf := rfl
@[simp] theorem landWrites_port (s : State) : (landWrites s).port = s.port := rfl
@[simp] theorem landWrites_inFlight (s : State) : (landWrites s).inFlight = [] := rfl
@[simp] theorem landWrites_received (s : State) : (landWrites s).received = s.received := rfl
@[simp] theorem landWrites_draws (s : State) : (landWrites s).draws = s.draws := rfl

/-! ### The message state -/

@[simp] theorem fresh_H : Message.fresh.H = initialHash := rfl
@[simp] theorem fresh_W : Message.fresh.W = Vector.replicate 80 0#32 := rfl
@[simp] theorem fresh_lenW : Message.fresh.lenW = 0 := rfl
@[simp] theorem fresh_bitCount : Message.fresh.bitCount = 0#64 := rfl

@[simp] theorem compress_H (m : Message) :
    (compress m).H = foldBack m.H (runRounds (expandSchedule m.W) (initWorking m.H)) := rfl
@[simp] theorem compress_W (m : Message) : (compress m).W = Vector.replicate 80 0#32 := rfl
@[simp] theorem compress_lenW (m : Message) : (compress m).lenW = m.lenW := rfl
@[simp] theorem compress_bitCount (m : Message) : (compress m).bitCount = m.bitCount := rfl

@[simp] theorem freeMessage_H (n : Nat) : (freeMessage n).H = Config.freeHash n := rfl
@[simp] theorem freeMessage_W (n : Nat) : (freeMessage n).W = Config.freeSchedule n := rfl
@[simp] theorem freeMessage_lenW (n : Nat) : (freeMessage n).lenW = Config.freeLenW n := rfl
@[simp] theorem freeMessage_bitCount (n : Nat) : (freeMessage n).bitCount = Config.freeBitCount n := rfl

/-! ### What a command word on the port changes -/

@[simp] theorem withFetchWord_port (s : State) (nbits w : Nat) :
    (s.withFetchWord nbits w).port = .command (portWord nbits w) :: s.port := rfl
@[simp] theorem withFetchWord_msg (s : State) (nbits w : Nat) : (s.withFetchWord nbits w).msg = s.msg := rfl
@[simp] theorem withFetchWord_buf (s : State) (nbits w : Nat) : (s.withFetchWord nbits w).buf = s.buf := rfl

/-! ### The two cases of `step` and the one case of completion -/

theorem step_of_port_nil {s : State} (h : s.port = []) : step s = .next s := by simp [step, h]

theorem step_of_port_cons {s : State} {a : HostAction} {rest : List HostAction} (h : s.port = a :: rest) :
    step s = hostStep a { s with port := rest } := by simp [step, h]

@[simp] theorem completeCommand_next (s : State) : completeCommand (.next s) = .next (landWrites s) := rfl

theorem landWrites_of_inFlight_nil {s : State} (h : s.inFlight = []) : landWrites s = s := by
  cases s; simp_all [landWrites]

theorem completeCommand_eq_next {o : Host.Outcome State Fault Refusal} {t : State}
    (h : completeCommand o = .next t) : ∃ u, o = .next u ∧ t = landWrites u := by
  cases o with
  | next u => exact ⟨u, rfl, by simpa using h.symm⟩
  | fault r => simp [completeCommand] at h
  | refused r => simp [completeCommand] at h

end Sys2Proof.Laws
end

