-- ==== Sys2Proof/Laws/Absorb.lean ====
section
/-!
SUPPORT. What ABSORB does (41_intake.md R75): its two cases, its counters, and a sequence of ABSORBs.
-/

namespace Sys2Proof.Laws

open Sys2Proof.Machine

/-- The message state with the byte placed in its word and lenW not yet moved (41_intake.md R75, first two lines). -/
def placeByte (m : Message) (b : Byte) : Message :=
  { m with
    W := schedulePut m.W (m.lenW.val / 4) ((scheduleAt m.W (m.lenW.val / 4) <<< 8) ||| b.setWidth 32) }

/-- ABSORB below the block boundary. -/
theorem absorb_of_lt (m : Message) (b : Byte) (h : m.lenW.val + 1 < 64) :
    absorb m b = { placeByte m b with lenW := ⟨m.lenW.val + 1, h⟩, bitCount := m.bitCount + 8#64 } := by
  simp [absorb, placeByte, h]

/-- ABSORB of the 64th byte of a block. -/
theorem absorb_of_last (m : Message) (b : Byte) (h : m.lenW.val = 63) :
    absorb m b = { compress (placeByte m b) with lenW := 0, bitCount := m.bitCount + 8#64 } := by
  have : ¬ (m.lenW.val + 1 < 64) := by omega
  simp [absorb, placeByte, this]

@[simp] theorem absorb_bitCount (m : Message) (b : Byte) : (absorb m b).bitCount = m.bitCount + 8#64 := rfl

theorem absorb_lenW (m : Message) (b : Byte) : (absorb m b).lenW.val = (m.lenW.val + 1) % 64 := by
  by_cases h : m.lenW.val + 1 < 64
  · rw [absorb_of_lt m b h]; simp [Nat.mod_eq_of_lt h]
  · have : m.lenW.val = 63 := by have := m.lenW.isLt; omega
    rw [absorb_of_last m b this]; simp [this]

@[simp] theorem absorbAll_nil (m : Message) : absorbAll m [] = m := rfl
@[simp] theorem absorbAll_cons (m : Message) (b : Byte) (bs : List Byte) :
    absorbAll m (b :: bs) = absorbAll (absorb m b) bs := rfl
theorem absorbAll_append (m : Message) (as bs : List Byte) :
    absorbAll m (as ++ bs) = absorbAll (absorbAll m as) bs := by simp [absorbAll, List.foldl_append]

end Sys2Proof.Laws
end

