-- ==== Sys2Proof/Laws/Assembler.lean ====
section
/-!
SUPPORT. What the assembler accepts (30_encoding.md R67), said once for each of its parts.
-/

namespace Sys2Proof.Laws

open Sys2Proof.Machine

/-- Everything `asmUpdate` can accept. -/
theorem asmUpdate_eq_ok {off len : List Char} {i : Instr} (h : asmUpdate off len = .ok i) :
    ∃ o l, signedNumber off = some o ∧ signedNumber len = some l ∧ fitsSigned32 o = true ∧ fitsSigned32 l = true ∧
      i = .update o l := by
  unfold asmUpdate at h
  split at h
  · split at h
    · rename_i o l ho hl hf
      simp only [Bool.and_eq_true] at hf
      cases h
      exact ⟨o, l, ho, hl, hf.1, hf.2, rfl⟩
    · cases h
  · cases h

/-- Everything `asmSetbitcount` can accept. -/
theorem asmSetbitcount_eq_ok {v : List Char} {i : Instr} (h : asmSetbitcount v = .ok i) :
    ∃ n, unsignedNumber v = some n ∧ n < 2 ^ 64 ∧ i = .setbitcount (BitVec.ofNat 64 n) := by
  unfold asmSetbitcount at h
  split at h
  · split at h
    · cases h; exact ⟨_, ‹_›, ‹_›, rfl⟩
    · cases h
  · split at h <;> cases h

/-- A mapped answer is an answer. -/
theorem except_map_eq_ok {ε α β : Type} {f : α → β} {x : Except ε α} {b : β} (h : x.map f = .ok b) :
    ∃ a, x = .ok a ∧ b = f a := by
  cases x with
  | error e => cases h
  | ok a => cases h; exact ⟨a, rfl, rfl⟩

end Sys2Proof.Laws
end

