-- ==== Sys2Proof/Laws/Encoding.lean ====
section
/-!
SUPPORT. The fields of a laid-out command word (30_encoding.md R57, R58) and the opcode table's rows (R61).
-/

namespace Sys2Proof.Laws

open Sys2Proof.Machine

@[simp] theorem opField_commandWord (op : BitVec 4) (d : DWord) : opField (commandWord op d) = op := by
  simp only [opField, commandWord]
  ext i hi
  have h1 : 64 + i < 68 := by omega
  simp [BitVec.getElem_extractLsb', h1, BitVec.getLsbD_eq_getElem hi]

@[simp] theorem opndField_commandWord (op : BitVec 4) (d : DWord) : opndField (commandWord op d) = d := by
  simp only [opndField, commandWord]
  ext i hi
  have h1 : i < 68 := by omega
  simp [BitVec.getElem_extractLsb', h1, hi]

@[simp] theorem valueOperand_commandWord (op : BitVec 4) (d : DWord) : valueOperand (commandWord op d) = d :=
  opndField_commandWord op d

theorem fitsSigned32_iff (v : Int) : fitsSigned32 v = true ↔ -2147483648 ≤ v ∧ v ≤ 2147483647 := by
  simp [fitsSigned32]

/-- A number in range survives its field. -/
theorem toInt_ofInt_of_fits {v : Int} (h : fitsSigned32 v = true) : (BitVec.ofInt 32 v).toInt = v := by
  rw [fitsSigned32_iff] at h
  rw [BitVec.toInt_ofInt]
  simp only [Int.bmod_def]
  split <;> omega

theorem offsetField_updateOperand (op : BitVec 4) (o l : Int) :
    (commandWord op (updateOperand o l)).extractLsb' 32 32 = BitVec.ofInt 32 o := by
  simp only [commandWord, updateOperand]
  ext i hi
  have h1 : 32 + i < 64 := by omega
  have h2 : 32 + i < 68 := by omega
  simp [BitVec.getElem_extractLsb', h1, h2, hi]

theorem lengthField_updateOperand (op : BitVec 4) (o l : Int) :
    (commandWord op (updateOperand o l)).extractLsb' 0 32 = BitVec.ofInt 32 l := by
  simp only [commandWord, updateOperand]
  ext i hi
  have h1 : i < 64 := by omega
  have h2 : i < 68 := by omega
  simp [BitVec.getElem_extractLsb', h1, h2, hi]

/-- No word belongs to two rows of the opcode table. -/
theorem opcodeTable_disjoint : opcodeTable.Pairwise fun r q => ∀ cw, r.covers cw = true → q.covers cw = false := by
  have key : ∀ (r q : OpcodeRow), r.pattern &&& 0xF0000000000000000#68 ≠ q.pattern &&& 0xF0000000000000000#68 →
      r.mask &&& 0xF0000000000000000#68 = 0xF0000000000000000#68 →
      q.mask &&& 0xF0000000000000000#68 = 0xF0000000000000000#68 →
      ∀ cw, r.covers cw = true → q.covers cw = false := by
    intro r q hne hr hq cw h
    simp only [OpcodeRow.covers, beq_iff_eq] at h
    simp only [OpcodeRow.covers, beq_eq_false_iff_ne, ne_eq]
    intro h'
    apply hne
    rw [← h, ← h', BitVec.and_assoc, BitVec.and_assoc, hr, hq]
  unfold opcodeTable
  refine .cons ?_ (.cons ?_ (.cons ?_ (.cons ?_ .nil))) <;> intro q hq <;>
    simp only [List.mem_cons, List.not_mem_nil, or_false] at hq
  · rcases hq with rfl | rfl | rfl <;> exact key _ _ (by decide) (by decide) (by decide)
  · rcases hq with rfl | rfl <;> exact key _ _ (by decide) (by decide) (by decide)
  · subst hq; exact key _ _ (by decide) (by decide) (by decide)

end Sys2Proof.Laws
end

