-- ==== Sys2Proof/Laws/Status.lean ====
section
/-!
SUPPORT. What each write of STATUS does to each of its fields (10_state.md R32).
-/

namespace Sys2Proof.Laws

open Sys2Proof.Machine

/-- Recording a fault sets FAULT, sets CAUSE only when FAULT was 0, and keeps the other bits. -/
theorem statusRecordFault_fields : ∀ (st : BitVec 8) (c : FaultCause),
    statusFault (statusRecordFault st c) = true ∧
    statusCause (statusRecordFault st c) = (if statusFault st then statusCause st else faultCauseCode c) ∧
    statusDvalid (statusRecordFault st c) = statusDvalid st ∧
    statusReserved (statusRecordFault st c) = statusReserved st := by
  intro st c
  cases c <;> revert st <;> decide +kernel

/-- Setting DVALID keeps the other fields. -/
theorem statusWithDvalid_fields : ∀ st : BitVec 8,
    statusDvalid (statusWithDvalid st) = true ∧
    statusFault (statusWithDvalid st) = statusFault st ∧
    statusCause (statusWithDvalid st) = statusCause st ∧
    statusReserved (statusWithDvalid st) = statusReserved st := by decide +kernel

/-- A read returns the three fields and zeros. -/
theorem statusRead_fields : ∀ st : BitVec 8,
    statusReserved (statusRead st) = 0#4 ∧
    statusFault (statusRead st) = statusFault st ∧
    statusCause (statusRead st) = statusCause st ∧
    statusDvalid (statusRead st) = statusDvalid st := by decide +kernel

@[simp] theorem statusRecordFault_fault (st : BitVec 8) (c : FaultCause) :
    statusFault (statusRecordFault st c) = true := (statusRecordFault_fields st c).1
@[simp] theorem statusRecordFault_cause (st : BitVec 8) (c : FaultCause) :
    statusCause (statusRecordFault st c) = if statusFault st then statusCause st else faultCauseCode c :=
  (statusRecordFault_fields st c).2.1
@[simp] theorem statusRecordFault_dvalid (st : BitVec 8) (c : FaultCause) :
    statusDvalid (statusRecordFault st c) = statusDvalid st := (statusRecordFault_fields st c).2.2.1
@[simp] theorem statusRecordFault_reserved (st : BitVec 8) (c : FaultCause) :
    statusReserved (statusRecordFault st c) = statusReserved st := (statusRecordFault_fields st c).2.2.2

@[simp] theorem statusWithDvalid_dvalid (st : BitVec 8) : statusDvalid (statusWithDvalid st) = true :=
  (statusWithDvalid_fields st).1
@[simp] theorem statusWithDvalid_fault (st : BitVec 8) : statusFault (statusWithDvalid st) = statusFault st :=
  (statusWithDvalid_fields st).2.1
@[simp] theorem statusWithDvalid_cause (st : BitVec 8) : statusCause (statusWithDvalid st) = statusCause st :=
  (statusWithDvalid_fields st).2.2.1
@[simp] theorem statusWithDvalid_reserved (st : BitVec 8) :
    statusReserved (statusWithDvalid st) = statusReserved st := (statusWithDvalid_fields st).2.2.2

end Sys2Proof.Laws
end

