-- ==== Sys2Proof/Laws/Memory.lean ====
section
/-!
SUPPORT. The buffer: read after write, and that every operation keeps the canonical form.
-/

namespace Sys2Proof.Laws

open Sys2Proof.Machine

/-! ### Read after write -/

theorem cellsGet_put_same : ∀ (cs : List Host.Cell) (i : Nat) (b : Byte), cellsRise cs = true →
    cellsGet (cellsPut cs i b) i = b
  | [], i, b, _ => by by_cases h : b = unlistedByte <;> simp [cellsPut, cellsGet, h]
  | (a, v) :: rest, i, b, hr => by
    have notIn : ∀ (cs : List Host.Cell) (k j : Nat) (w : Byte), cellsRise ((k, w) :: cs) = true → j ≤ k →
        cellsGet cs j = unlistedByte := by
      intro cs
      induction cs with
      | nil => intros; rfl
      | cons c cs ih =>
        intro k j w h hj
        obtain ⟨a, v⟩ := c
        simp only [cellsRise, Bool.and_eq_true, decide_eq_true_eq] at h
        have : a ≠ j := by omega
        simp [cellsGet, this, ih a j v h.2 (by omega)]
    have tailRises : cellsRise rest = true := by
      cases rest with
      | nil => rfl
      | cons c rest => simp only [cellsRise, Bool.and_eq_true] at hr; exact hr.2
    by_cases hlt : i < a
    · have hne : a ≠ i := by omega
      by_cases hb : b = unlistedByte
      · simp [cellsPut, hlt, hb, cellsGet, hne, notIn rest a i v hr (by omega)]
      · simp [cellsPut, hlt, hb, cellsGet]
    · by_cases he : i = a
      · subst he
        by_cases hb : b = unlistedByte
        · simp [cellsPut, hb, notIn rest i i v hr (by omega)]
        · simp [cellsPut, hb, cellsGet]
      · have hne : a ≠ i := fun h => he h.symm
        simp [cellsPut, hlt, he, cellsGet, hne, cellsGet_put_same rest i b tailRises]

theorem cellsGet_put_other : ∀ (cs : List Host.Cell) (i j : Nat) (b : Byte), j ≠ i →
    cellsGet (cellsPut cs i b) j = cellsGet cs j
  | [], i, j, b, h => by by_cases hb : b = unlistedByte <;> simp [cellsPut, cellsGet, hb, h.symm]
  | (a, v) :: rest, i, j, b, h => by
    have h' : i ≠ j := h.symm
    by_cases hlt : i < a
    · by_cases hb : b = unlistedByte <;> simp [cellsPut, hlt, hb, cellsGet, h']
    · by_cases he : i = a
      · subst he
        by_cases hb : b = unlistedByte <;> simp [cellsPut, hb, cellsGet, h']
      · simp only [cellsPut, hlt, he, ↓reduceIte, cellsGet, cellsGet_put_other rest i j b h]

/-! ### The canonical form -/

theorem wf_iff (m : Memory) : m.wf = true ↔
    cellsRise m.cells = true ∧ ∀ c ∈ m.cells, c.1 < m.len ∧ c.2 ≠ unlistedByte := by
  simp [Memory.wf, List.all_eq_true]

theorem cellsPut_mem : ∀ (cs : List Host.Cell) (i : Nat) (b : Byte) (c : Host.Cell), c ∈ cellsPut cs i b →
    c ∈ cs ∨ (c = (i, b) ∧ b ≠ unlistedByte)
  | [], i, b, c, h => by
    by_cases hb : b = unlistedByte
    · simp [cellsPut, hb] at h
    · simp [cellsPut, hb] at h; exact .inr ⟨h, hb⟩
  | (a, v) :: rest, i, b, c, h => by
    by_cases hlt : i < a
    · by_cases hb : b = unlistedByte
      · simp [cellsPut, hlt, hb] at h; simp [h]
      · simp [cellsPut, hlt, hb] at h
        rcases h with h | h | h <;> simp [h, hb]
    · by_cases he : i = a
      · by_cases hb : b = unlistedByte
        · simp [cellsPut, he, hb] at h; simp [h]
        · simp [cellsPut, he, hb] at h
          rcases h with h | h <;> simp [h, hb, he]
      · simp [cellsPut, hlt, he] at h
        rcases h with h | h
        · simp [h]
        · rcases cellsPut_mem rest i b c h with h | h
          · simp [h]
          · exact .inr h

/-- The cells rise and the first index is above `k`. -/
def RiseAbove (k : Nat) (cs : List Host.Cell) : Prop := cellsRise cs = true ∧ ∀ c ∈ cs, k < c.1

theorem rise_cons_iff (a : Nat) (v : Byte) (cs : List Host.Cell) :
    cellsRise ((a, v) :: cs) = true ↔ RiseAbove a cs := by
  induction cs generalizing a v with
  | nil => simp [cellsRise, RiseAbove]
  | cons c cs ih =>
    obtain ⟨b, w⟩ := c
    simp only [cellsRise, Bool.and_eq_true, decide_eq_true_eq, RiseAbove]
    constructor
    · rintro ⟨hab, hr⟩
      refine ⟨hr, ?_⟩
      intro c hc
      rcases List.mem_cons.1 hc with rfl | hc
      · exact hab
      · exact Nat.lt_trans hab (((ih b w).1 hr).2 c hc)
    · rintro ⟨hr, hall⟩
      exact ⟨hall (b, w) (by simp), hr⟩

theorem rise_put : ∀ (cs : List Host.Cell) (i : Nat) (b : Byte), cellsRise cs = true →
    cellsRise (cellsPut cs i b) = true
  | [], i, b, _ => by by_cases hb : b = unlistedByte <;> simp [cellsPut, cellsRise, hb]
  | (a, v) :: rest, i, b, hr => by
    have hra := (rise_cons_iff a v rest).1 hr
    by_cases hlt : i < a
    · by_cases hb : b = unlistedByte
      · simpa [cellsPut, hlt, hb] using hr
      · simpa [cellsPut, hlt, hb, cellsRise] using hr
    · by_cases he : i = a
      · subst he
        by_cases hb : b = unlistedByte
        · simpa [cellsPut, hb] using hra.1
        · simpa [cellsPut, hb] using (rise_cons_iff i b rest).2 hra
      · have := (rise_cons_iff a v (cellsPut rest i b)).2 ⟨rise_put rest i b hra.1, fun c hc => by
          rcases cellsPut_mem rest i b c hc with h | ⟨rfl, _⟩
          · exact hra.2 c h
          · show a < i; omega⟩
        simpa [cellsPut, hlt, he] using this

theorem write_len (m : Memory) (i : Nat) (b : Byte) : (m.write i b).len = m.len := by
  unfold Memory.write; split <;> rfl

/-- A host write keeps the canonical form. -/
theorem write_keeps_wf {m : Memory} (h : m.wf = true) (i : Nat) (b : Byte) : (m.write i b).wf = true := by
  by_cases hi : i < m.len
  · rw [wf_iff] at h ⊢
    simp only [Memory.write, hi, ↓reduceIte]
    refine ⟨rise_put m.cells i b h.1, fun c hc => ?_⟩
    rcases cellsPut_mem m.cells i b c hc with hm | ⟨rfl, hb⟩
    · exact h.2 c hm
    · exact ⟨hi, hb⟩
  · simpa [Memory.write, hi] using h

/-- A list of host writes keeps the length. -/
theorem writes_len (cs : List Host.Cell) (m : Memory) :
    (cs.foldl (fun m c => m.write c.1 c.2) m).len = m.len := by
  induction cs generalizing m with
  | nil => rfl
  | cons c cs ih => simp [ih, write_len]

/-- A list of host writes keeps the canonical form. -/
theorem writes_keep_wf (cs : List Host.Cell) {m : Memory} (h : m.wf = true) :
    (cs.foldl (fun m c => m.write c.1 c.2) m).wf = true := by
  induction cs generalizing m with
  | nil => exact h
  | cons c cs ih => exact ih (write_keeps_wf h c.1 c.2)

theorem cellsOf_spec (bs : List Byte) (i : Nat) :
    cellsRise (cellsOf i bs) = true ∧
    ∀ c ∈ cellsOf i bs, i ≤ c.1 ∧ c.1 < i + bs.length ∧ c.2 ≠ unlistedByte := by
  induction bs generalizing i with
  | nil => simp [cellsOf, cellsRise]
  | cons b bs ih =>
    have h := ih (i + 1)
    by_cases hb : b = unlistedByte
    · simp only [cellsOf, hb, ↓reduceIte, List.length_cons]
      exact ⟨h.1, fun c hc => by have := h.2 c hc; exact ⟨by omega, by omega, this.2.2⟩⟩
    · simp only [cellsOf, hb, ↓reduceIte, List.length_cons]
      refine ⟨(rise_cons_iff _ _ _).2 ⟨h.1, fun c hc => by have := h.2 c hc; omega⟩, fun c hc => ?_⟩
      rcases List.mem_cons.1 hc with rfl | hc
      · exact ⟨by simp, by simp, hb⟩
      · have := h.2 c hc; exact ⟨by omega, by omega, this.2.2⟩

/-- A supplied buffer is canonical. -/
theorem ofBytes_wf (bs : List Byte) : (Memory.ofBytes bs).wf = true := by
  rw [wf_iff]
  have h := cellsOf_spec bs 0
  exact ⟨h.1, fun c hc => by have := h.2 c hc; simp only [Memory.ofBytes]; exact ⟨by omega, this.2.2⟩⟩

theorem cellsGet_cellsOf (bs : List Byte) (i j : Nat) (h : j < bs.length) :
    cellsGet (cellsOf i bs) (i + j) = bs[j] := by
  induction bs generalizing i j with
  | nil => simp at h
  | cons b bs ih =>
    have low : ∀ (cs : List Host.Cell) (k : Nat), (∀ c ∈ cs, k < c.1) → cellsGet cs k = unlistedByte := by
      intro cs k hc
      induction cs with
      | nil => rfl
      | cons c cs ihc =>
        obtain ⟨a, v⟩ := c
        have : a ≠ k := by have := hc (a, v) (by simp); simp at this; omega
        simp [cellsGet, this, ihc (fun c h => hc c (by simp [h]))]
    cases j with
    | zero =>
      by_cases hb : b = unlistedByte
      · simp only [cellsOf, hb, ↓reduceIte, Nat.add_zero, List.getElem_cons_zero]
        exact low _ i fun c hc => by have := ((cellsOf_spec bs (i + 1)).2 c hc).1; omega
      · simp [cellsOf, hb, cellsGet]
    | succ j =>
      have hj : j < bs.length := by simpa using h
      have := ih (i + 1) j hj
      by_cases hb : b = unlistedByte
      · simpa [cellsOf, hb, Nat.add_assoc, Nat.add_comm 1 j] using this
      · have hne : i ≠ i + (j + 1) := by omega
        simpa [cellsOf, hb, cellsGet, hne, Nat.add_assoc, Nat.add_comm 1 j] using this

/-- Reading a supplied buffer gives its bytes, and nothing outside. -/
theorem read_ofBytes (bs : List Byte) (i : Nat) : (Memory.ofBytes bs).read i = bs[i]? := by
  by_cases h : i < bs.length
  · have := cellsGet_cellsOf bs 0 i h
    simp only [Nat.zero_add] at this
    simp [Memory.read, Memory.ofBytes, h, this]
  · simp [Memory.read, Memory.ofBytes, h]

/-- A read sees the last write to its index. -/
theorem read_write_same {m : Memory} (hw : m.wf = true) {i : Nat} (hi : i < m.len) (b : Byte) :
    (m.write i b).read i = some b := by
  simp [Memory.read, Memory.write, hi, cellsGet_put_same m.cells i b ((wf_iff m).1 hw).1]

/-- A write leaves every other index alone. -/
theorem read_write_other (m : Memory) {i j : Nat} (h : j ≠ i) (b : Byte) :
    (m.write i b).read j = m.read j := by
  by_cases hi : i < m.len
  · simp [Memory.read, Memory.write, hi, cellsGet_put_other m.cells i j b h]
  · simp [Memory.write, hi]

theorem read_isSome_iff (m : Memory) (i : Nat) : (m.read i).isSome = true ↔ i < m.len := by
  unfold Memory.read; split <;> simp_all

end Sys2Proof.Laws
end

