-- ==== Sys2Proof/Laws/Update.lean ====
section
/-!
SUPPORT. The reads of an UPDATE and the bounds check before them (41_intake.md R72, R73; 20_memory.md R41, R52).
-/

namespace Sys2Proof.Laws

open Sys2Proof.Machine

theorem inBounds_iff (offset length : Int) (n : Nat) :
    inBounds offset length n = true ↔ 0 ≤ offset ∧ 0 ≤ length ∧ offset + length ≤ (n : Int) := by
  simp [inBounds, and_assoc]

/-- A range in bounds, as natural numbers. -/
theorem inBounds_toNat {offset length : Int} {n : Nat} (h : inBounds offset length n = true) :
    offset.toNat + length.toNat ≤ n := by
  rw [inBounds_iff] at h; omega

theorem engineRead_isSome_iff (s : State) (i : Nat) : (engineRead s i).isSome = true ↔ i < s.buf.len := by
  simp [engineRead, read_isSome_iff]

/-- Where no host write is in progress the engine reads what buf holds. -/
theorem engineRead_of_not_raced {s : State} {i : Nat} (h : raced s i = false) :
    engineRead s i = s.buf.read i := by
  simp [engineRead, h]

/-- The reads of a range inside the buffer answer, with one byte an index. -/
theorem engineReadRange_spec (s : State) : ∀ (n a : Nat), a + n ≤ s.buf.len →
    ∃ bs, engineReadRange s a n = some bs ∧ bs.length = n ∧ ∀ i, i < n → bs[i]? = engineRead s (a + i)
  | 0, a, _ => ⟨[], rfl, rfl, by omega⟩
  | n + 1, a, h => by
    obtain ⟨bs, hbs, hl, hi⟩ := engineReadRange_spec s n (a + 1) (by omega)
    have hsome : (engineRead s a).isSome = true := (engineRead_isSome_iff s a).2 (by omega)
    obtain ⟨b, hb⟩ := Option.isSome_iff_exists.1 hsome
    refine ⟨b :: bs, by simp [engineReadRange, hb, hbs], by simp [hl], ?_⟩
    intro i hin
    cases i with
    | zero => simpa using hb.symm
    | succ i => simpa [Nat.add_assoc, Nat.add_comm 1 i] using hi i (by omega)

/-- No index of the range is raced when the range is not. -/
theorem not_raced_of_rangeRaced {s : State} {a n i : Nat} (h : rangeRaced s a n = false) (hi : i < n) :
    raced s (a + i) = false := by
  simp only [rangeRaced, List.any_eq_false, Bool.and_eq_true, decide_eq_true_eq, not_and] at h
  simp only [raced, List.any_eq_false, beq_iff_eq]
  intro c hc he
  have := h c hc (by omega)
  omega

@[simp] theorem rangeRaced_of_inFlight_nil {s : State} (h : s.inFlight = []) (a n : Nat) :
    rangeRaced s a n = false := by simp [rangeRaced, h]

end Sys2Proof.Laws
end

