-- ==== Sys2Proof/Laws/Exec.lean ====
section
/-!
SUPPORT. Everything a command can do, said once: the cases of UPDATE and the inversion of `exec`, of a dispatched
word and of `step`. Later proofs cite these and unfold no meaning.
-/

namespace Sys2Proof.Laws

open Sys2Proof.Machine

/-- What an in-bounds UPDATE does with the bytes it read: the message state and the draw counter alone move, and
with POISON = 0 the message state is that after the ABSORBs. -/
theorem absorbRead_cases (bs : List Byte) (r : Bool) (s : State) :
    ∃ m n, absorbRead bs r s = { s with msg := m, draws := n } ∧
      (s.POISON = false → m = absorbAll s.msg bs ∧ n = if r then s.draws + 1 else s.draws) := by
  unfold absorbRead
  split
  · rename_i h
    simp only [Bool.and_eq_true] at h
    exact ⟨_, _, rfl, by simp [h.1]⟩
  · exact ⟨_, _, rfl, by simp⟩

/-- UPDATE in bounds. -/
theorem update_of_inBounds (s : State) (offset length : Int) (h : inBounds offset length s.buf.len = true) :
    ∃ bs, engineReadRange s offset.toNat length.toNat = some bs ∧ bs.length = length.toNat ∧
      (∀ i, i < length.toNat → bs[i]? = engineRead s (offset.toNat + i)) ∧
      exec (.update offset length) s =
        .next (absorbRead bs (rangeRaced s offset.toNat length.toNat) s) := by
  obtain ⟨bs, h1, h2, h3⟩ := engineReadRange_spec s length.toNat offset.toNat (inBounds_toNat h)
  exact ⟨bs, h1, h2, h3, by simp [exec, execUpdate, h, h1]⟩

/-- UPDATE out of bounds. -/
theorem update_of_outOfBounds (s : State) (offset length : Int) (h : inBounds offset length s.buf.len = false) :
    exec (.update offset length) s = .next (boundsFaultEntry s) := by simp [exec, execUpdate, h]

/-- Everything a command can do when it answers a next state. -/
theorem exec_cases {i : Instr} {s t : State} (h : exec i s = .next t) :
    (∃ o l bs, i = .update o l ∧ inBounds o l s.buf.len = true ∧
      engineReadRange s o.toNat l.toNat = some bs ∧ t = absorbRead bs (rangeRaced s o.toNat l.toNat) s) ∨
    (∃ o l, i = .update o l ∧ inBounds o l s.buf.len = false ∧ t = boundsFaultEntry s) ∨
    (∃ v, i = .setbitcount v ∧ t = { s with msg := { s.msg with bitCount := v } }) ∨
    (i = .reset ∧ t = resetMessage s) ∨
    (i = .digest ∧ t = { resetMessage s with
      DOUT := some (digestOutput s)
      STATUS := statusWithDvalid s.STATUS
      draws := if s.POISON then s.draws + 1 else s.draws }) := by
  cases i with
  | update o l =>
    cases hb : inBounds o l s.buf.len
    · rw [update_of_outOfBounds s o l hb] at h
      cases h
      exact .inr (.inl ⟨o, l, rfl, hb, rfl⟩)
    · obtain ⟨bs, hbs, _, _, he⟩ := update_of_inBounds s o l hb
      rw [he] at h
      cases h
      exact .inl ⟨o, l, bs, rfl, hb, hbs, rfl⟩
  | setbitcount v => cases h; exact .inr (.inr (.inl ⟨v, rfl, rfl⟩))
  | reset => cases h; exact .inr (.inr (.inr (.inl ⟨rfl, rfl⟩)))
  | digest => cases h; exact .inr (.inr (.inr (.inr ⟨rfl, rfl⟩)))

/-- A dispatched word runs its command or takes IllegalCommand. -/
theorem dispatchCommand_cases {cw : CommandWord} {s t : State} (h : dispatchCommand cw s = .next t) :
    (∃ i, decode cw = .legal i ∧ exec i s = .next t) ∨
    (∃ e, decode cw = .illegal e ∧ t = illegalCommandEntry s) := by
  unfold dispatchCommand at h
  split at h
  · exact .inl ⟨_, ‹_›, h⟩
  · cases h; exact .inr ⟨_, ‹_›, rfl⟩

/-- Everything one host action can do when it answers a next state. -/
theorem hostStep_cases {a : HostAction} {s t : State} (h : hostStep a s = .next t) :
    (∃ cw u, a = .command cw ∧ dispatchCommand cw s = .next u ∧ t = landWrites u) ∨
    (a = .readDout ∧ t = { s with received := .dout (hostReadDout s) :: s.received }) ∨
    (a = .readStatus ∧ t = { s with received := .status (hostReadStatus s) :: s.received }) ∨
    (∃ bytes, a = .supplyBuf bytes ∧ t = { s with buf := Memory.ofBytes bytes, inFlight := [] }) ∨
    (∃ i b, a = .writeBuf i b ∧ i < s.buf.len ∧ t = { s with buf := s.buf.write i b }) ∨
    (∃ i b, a = .beginWrite i b ∧ i < s.buf.len ∧ t = { s with inFlight := s.inFlight ++ [(i, b)] }) ∨
    (a = .powerOn ∧ t = powerOnReset s) := by
  cases a with
  | command cw =>
    obtain ⟨u, hu, ht⟩ := completeCommand_eq_next h
    exact .inl ⟨cw, u, rfl, hu, ht⟩
  | readDout => cases h; exact .inr (.inl ⟨rfl, rfl⟩)
  | readStatus => cases h; exact .inr (.inr (.inl ⟨rfl, rfl⟩))
  | supplyBuf bytes => cases h; exact .inr (.inr (.inr (.inl ⟨bytes, rfl, rfl⟩)))
  | writeBuf i b =>
    simp only [hostStep] at h
    split at h
    · cases h; exact .inr (.inr (.inr (.inr (.inl ⟨i, b, rfl, ‹_›, rfl⟩))))
    · cases h
  | beginWrite i b =>
    simp only [hostStep] at h
    split at h
    · cases h; exact .inr (.inr (.inr (.inr (.inr (.inl ⟨i, b, rfl, ‹_›, rfl⟩)))))
    · cases h
  | powerOn => cases h; exact .inr (.inr (.inr (.inr (.inr (.inr ⟨rfl, rfl⟩)))))

/-- A step is idle or one host action on the state with that action taken. -/
theorem step_cases {s t : State} (h : step s = .next t) :
    (s.port = [] ∧ t = s) ∨ ∃ a rest, s.port = a :: rest ∧ hostStep a { s with port := rest } = .next t := by
  cases hp : s.port with
  | nil => rw [step_of_port_nil hp] at h; cases h; exact .inl ⟨rfl, rfl⟩
  | cons a rest => rw [step_of_port_cons hp] at h; exact .inr ⟨a, rest, rfl, h⟩

end Sys2Proof.Laws
end

