-- ==== Sys2Proof/Laws/PerInstr.lean ====
section
/-!
SUPPORT. The family OpcodeRow: the word of a command belongs to its row of the opcode table (30_encoding.md R61), one
lemma per constructor.
-/

/-- The encoded command has the row's fixed bits. -/
def Sys2Proof.Laws.OpcodeRow.Statement (i : Sys2Proof.Instr) : Prop :=
  (Sys2Proof.opcodeRow i).covers (Sys2Proof.encode i) = true

/-- A row that fixes the op field alone covers every word of that op. -/
theorem Sys2Proof.Laws.commandWord_op_bits (op : BitVec 4) (d : Sys2Proof.DWord) :
    Sys2Proof.Machine.commandWord op d &&& 0xF0000000000000000#68 = op.setWidth 68 <<< 64 := by
  have mask : ∀ i : Fin 68, (0xF0000000000000000#68)[i] = decide (64 ≤ i.val) := by decide
  simp only [Sys2Proof.Machine.commandWord]
  ext i hi
  have hm := mask ⟨i, hi⟩
  simp only [Fin.getElem_fin] at hm
  by_cases h : i < 64
  · simp [h, hm]
  · have h' : 64 ≤ i := by omega
    simp [h, hm, h']

theorem Sys2Proof.Laws.OpcodeRow.reset : Sys2Proof.Laws.OpcodeRow.Statement .reset := by
  unfold Sys2Proof.Laws.OpcodeRow.Statement; decide

theorem Sys2Proof.Laws.OpcodeRow.update (offset length : Int) :
    Sys2Proof.Laws.OpcodeRow.Statement (.update offset length) := by
  simp only [Sys2Proof.Laws.OpcodeRow.Statement, Sys2Proof.OpcodeRow.covers, Sys2Proof.opcodeRow, Sys2Proof.encode,
    Sys2Proof.Laws.commandWord_op_bits, beq_iff_eq]
  decide

theorem Sys2Proof.Laws.OpcodeRow.digest : Sys2Proof.Laws.OpcodeRow.Statement .digest := by
  unfold Sys2Proof.Laws.OpcodeRow.Statement; decide

theorem Sys2Proof.Laws.OpcodeRow.setbitcount (value : Sys2Proof.DWord) :
    Sys2Proof.Laws.OpcodeRow.Statement (.setbitcount value) := by
  simp only [Sys2Proof.Laws.OpcodeRow.Statement, Sys2Proof.OpcodeRow.covers, Sys2Proof.opcodeRow, Sys2Proof.encode,
    Sys2Proof.Laws.commandWord_op_bits, beq_iff_eq]
  decide
end

