-- ==== Sys2Proof/Laws/Schedule.lean ====
section
/-!
SUPPORT. Reading and writing one word of W, and the words of a packed block (00_scope.md R10, 10_state.md R27).
-/

namespace Sys2Proof.Laws

open Sys2Proof.Machine

theorem scheduleAt_of_lt (W : Schedule) {t : Nat} (h : t < 80) : scheduleAt W t = W[t] := by simp [scheduleAt, h]

/-- Two schedules with the same eighty words are one. -/
theorem schedule_ext {W V : Schedule} (h : ∀ t, t < 80 → scheduleAt W t = scheduleAt V t) : W = V := by
  apply Vector.ext
  intro t ht
  simpa [scheduleAt, ht] using h t ht

/-- A write is read at its index and nowhere else. -/
theorem scheduleAt_put (W : Schedule) {t j : Nat} (v : Word) (hj : j < 80) (ht : t < 80) :
    scheduleAt (schedulePut W j v) t = if t = j then v else scheduleAt W t := by
  simp only [scheduleAt, schedulePut, hj, ht, dite_true]
  rw [Vector.getElem_set]
  by_cases h : t = j
  · simp [h]
  · simp [h, Ne.symm h]

@[simp] theorem scheduleAt_zero (t : Nat) : scheduleAt (Vector.replicate 80 0#32) t = 0#32 := by
  unfold scheduleAt
  split <;> simp

theorem packWord_append (bs : List Byte) (b : Byte) :
    packWord (bs ++ [b]) = (packWord bs <<< 8) ||| b.setWidth 32 := by simp [packWord]

theorem scheduleAt_packBlock (bs : List Byte) {t : Nat} (h : t < 80) :
    scheduleAt (packBlock bs) t = packWord ((bs.drop (4 * t)).take 4) := by
  simp [scheduleAt, packBlock, h]

end Sys2Proof.Laws
end

