-- ==== Sys2Proof/Tests/Slice0.lean ====
section
/-!
SUPPORT. Tests: the words of the encoding written out, a few single steps, the vectors of 95_test_vectors.md for the
primitives, the WellFormed smoke test, and a witness for the hypotheses of each statement. Expected values are the
spec's (95_test_vectors.md, cited by id).
-/

namespace Sys2Proof.Tests

open Sys2Proof.Machine Sys2Proof.Safety

/-- A fresh engine with these bytes in the host buffer. -/
def withBuf (bs : List Byte) : State := { State.reset with buf := Memory.ofBytes bs }

/-- "abc". -/
def abc : List Byte := [0x61#8, 0x62#8, 0x63#8]

/-- A message state that holds `bs`, from the initial hash. -/
def holding (bs : List Byte) : Message :=
  { Message.fresh with
    W := packBlock bs
    lenW := if h : bs.length < 64 then ⟨bs.length, h⟩ else 0
    bitCount := BitVec.ofNat 64 (8 * bs.length) }

/-- What the tests look at. -/
def stateOf : Host.Outcome State Fault Refusal → Option State
  | .next s => some s
  | _ => none

/-! ### WellFormed refuses each ill-formed operand (30_encoding.md R58, R67) -/

theorem test_wellFormed_refuses_large_offset : (Instr.update 2147483648 0).wellFormed = false := by decide
theorem test_wellFormed_refuses_small_offset : (Instr.update (-2147483649) 0).wellFormed = false := by decide
theorem test_wellFormed_refuses_large_length : (Instr.update 0 2147483648).wellFormed = false := by decide
theorem test_wellFormed_refuses_small_length : (Instr.update 0 (-2147483649)).wellFormed = false := by decide
theorem test_wellFormed_takes_the_ends :
    (Instr.update (-2147483648) 2147483647).wellFormed = true := by decide

/-! ### Decoding (R61, R69, V-E1 to V-E11) -/

theorem test_decode_reset : decode 0x10000000000000000#68 = .legal .reset := by decide
theorem test_decode_reset_operand : decode 0x10000000000000001#68 = .illegal .operandNotZero := by decide
theorem test_decode_update : decode 0x20000000000000003#68 = .legal (.update 0 3) := by decide
theorem test_decode_update_negative :
    decode 0x2FFFFFFFF00000001#68 = .legal (.update (-1) 1) ∧
    decode 0x200000000FFFFFFFF#68 = .legal (.update 0 (-1)) ∧
    decode 0x27FFFFFFF7FFFFFFF#68 = .legal (.update 2147483647 2147483647) := by decide
theorem test_decode_digest : decode 0x30000000000000000#68 = .legal .digest := by decide
theorem test_decode_digest_operand : decode 0x38000000000000000#68 = .illegal .operandNotZero := by decide
theorem test_decode_setbitcount :
    decode 0x4FFFFFFFFFFFFFFFF#68 = .legal (.setbitcount 0xFFFFFFFFFFFFFFFF#64) := by decide
theorem test_decode_reserved :
    decode 0x00000000000000000#68 = .illegal .reservedOp ∧ decode 0x50000000000000000#68 = .illegal .reservedOp ∧
    decode 0xFFFFFFFFFFFFFFFFF#68 = .illegal .reservedOp := by decide
theorem test_decodeTableWord :
    decodeTableWord 72 0x200000005FFFFFFFF = some (.update 5 (-1)) ∧ decodeTableWord 72 0x100000000000000000 = none := by
  decide

/-- R67: case-insensitive mnemonics, a comment, a negative decimal. -/
theorem test_assemble_update :
    assemble ['U', 'p', 'd', 'a', 't', 'e', ' ', '5', ',', ' ', '-', '1', ' ', ';', 'x'] =
      .ok [0x200000005FFFFFFFF#68] := by rfl
/-- R67: hex. -/
theorem test_assemble_setbitcount :
    assemble ['s', 'e', 't', 'b', 'i', 't', 'c', 'o', 'u', 'n', 't', ' ', '0', 'x', '1', '8'] =
      .ok [0x40000000000000018#68] := by rfl
/-- R68: `hash 0, 3` (program P7). -/
theorem test_assemble_hash :
    assemble ['h', 'a', 's', 'h', ' ', '0', ',', ' ', '3'] =
      .ok [0x10000000000000000#68, 0x20000000000000003#68, 0x30000000000000000#68] := by rfl

/-! ### Primitives (V-P1 to V-P19) -/

theorem test_rotl32 :
    rotl32 0x80000000#32 1 = 0x00000001#32 ∧ rotl32 0x12345678#32 5 = 0x468ACF02#32 ∧
    rotl32 0x12345678#32 30 = 0x048D159E#32 ∧ rotl32 0xEFCDAB89#32 30 = 0x7BF36AE2#32 := by decide
theorem test_passFunctions :
    fCh 0xF0F0F0F0#32 0xFF00FF00#32 0x0FF00FF0#32 = 0xFF00FF00#32 ∧
    fParity 0xF0F0F0F0#32 0xFF00FF00#32 0x0FF00FF0#32 = 0x00000000#32 ∧
    fMaj 0xFFFFFFFF#32 0x12345678#32 0x9ABCDEF0#32 = 0x9ABCDEF8#32 ∧
    fMaj 0xF0F0F0F0#32 0xFF00FF00#32 0x0FF00FF0#32 = 0xFFF0FFF0#32 := by decide
/-- V-C1, round 0. -/
theorem test_roundStep :
    roundStep 0 0x61626380#32 (initWorking initialHash) =
      { A := 0x0116fc33#32, B := 0x67452301#32, C := 0x7bf36ae2#32, D := 0x98badcfe#32, E := 0x10325476#32 } := by
  decide
/-- V-C1, the last schedule word. -/
theorem test_expandSchedule :
    scheduleAt (expandSchedule (packBlock (abc ++ padding 3 24#64))) 79 = 0x822e0879#32 := by decide +kernel
/-- V-C1. -/
theorem test_compress :
    (compress { Message.fresh with W := packBlock (abc ++ padding 3 24#64) }).H =
      #v[0xa9993e36#32, 0x4706816a#32, 0xba3e2571#32, 0x7850c26c#32, 0x9cd0d89d#32] := by decide +kernel

/-! ### One step of each command -/

/-- V-A3: UPDATE of "abc" from reset. -/
theorem test_update_abc :
    (stateOf (exec (.update 0 3) (withBuf abc))).map (fun s => (s.msg.W[0], s.msg.lenW, s.msg.bitCount, s.STATUS)) =
      some (0x00616263#32, 3, 24#64, 0x00#8) := by decide +kernel
/-- V-U2, P4: one byte too many. -/
theorem test_update_boundsFault :
    (stateOf (exec (.update 0 4) (withBuf abc))).map (fun s => (s.STATUS, s.POISON, s.DOUT)) =
      some (0x03#8, true, none) := by decide
/-- P3: RESET mid-message. -/
theorem test_reset_discards :
    (stateOf (exec .reset { withBuf abc with msg := holding abc, STATUS := 0x0B#8 })).map (fun s => (s.msg, s.STATUS)) =
      some (Message.fresh, 0x0B#8) := by decide +kernel
/-- V-S1. -/
theorem test_digest_empty :
    (stateOf (exec .digest State.reset)).map (fun s => (s.DOUT.map (fun d => d.toList), s.STATUS, s.msg.lenW)) =
      some (some [0xda#8, 0x39#8, 0xa3#8, 0xee#8, 0x5e#8, 0x6b#8, 0x4b#8, 0x0d#8, 0x32#8, 0x55#8, 0xbf#8, 0xef#8,
        0x95#8, 0x60#8, 0x18#8, 0x90#8, 0xaf#8, 0xd8#8, 0x07#8, 0x09#8], 0x08#8, 0) := by decide +kernel
/-- V-F3b: 56 bytes "a", two compressions. -/
theorem test_digest_two_blocks :
    (stateOf (exec .digest { State.reset with msg := holding (List.replicate 56 0x61#8) })).map
        (fun s => s.DOUT.map (fun d => d.toList)) =
      some (some [0xc2#8, 0xdb#8, 0x33#8, 0x0f#8, 0x60#8, 0x83#8, 0x85#8, 0x4c#8, 0x99#8, 0xd4#8, 0xb5#8, 0xbf#8,
        0xb6#8, 0xe8#8, 0xf2#8, 0x9f#8, 0x20#8, 0x1b#8, 0xe6#8, 0x99#8]) := by decide +kernel
/-- V-E9. -/
theorem test_setbitcount :
    (stateOf (exec (.setbitcount 0xFFFFFFFFFFFFFFFF#64) State.reset)).map (fun s => (s.msg.bitCount, s.msg.lenW)) =
      some (0xFFFFFFFFFFFFFFFF#64, 0) := by decide
/-- P5, words 1 and 2: CAUSE 2, and the first cause is kept. -/
theorem test_step_illegal :
    (stateOf (step (State.reset.withFetchWord 72 0x70000000000000000))).map (fun s => s.STATUS) = some 0x05#8 ∧
    (stateOf (step ({ State.reset with STATUS := 0x03#8 }.withFetchWord 72 0x30000000000000001))).map
      (fun s => s.STATUS) = some 0x03#8 := by decide

/-- R31, R139, P4 before its DIGEST: a read of DOUT while DVALID = 0 returns no value and the engine goes on. -/
theorem test_step_early_readDout :
    step { withBuf abc with STATUS := 0x03#8, POISON := true, port := [.readDout, .readStatus] } =
      .next { withBuf abc with STATUS := 0x03#8, POISON := true, port := [.readStatus], received := [.dout none] } := by
  rfl

/-! ### Witnesses: states and operands that meet the hypotheses of the statements -/

theorem test_witness_DecodeOfEncodeIsTheCommand : ∃ i : Instr, i.wellFormed = true :=
  ⟨.update (-2147483648) 2147483647, by decide⟩
theorem test_witness_EncodeOfDecodeIsTheWord : ∃ cw i, decode cw = .legal i :=
  ⟨0x2FFFFFFFF00000001#68, .update (-1) 1, by decide⟩
theorem test_witness_LegalWordsAreTheOpcodeRows :
    (∃ cw, ∃ r ∈ opcodeTable, r.covers cw = true) ∧ ∃ cw, ∀ r ∈ opcodeTable, r.covers cw = false :=
  ⟨⟨0x4FFFFFFFFFFFFFFFF#68, ⟨0x40000000000000000#68, 0xF0000000000000000#68⟩, by decide, by decide⟩,
   ⟨0x30000000000000001#68, by decide⟩⟩
theorem test_witness_OperandsAreTheFields :
    (∃ cw, opField cw = 2#4 ∧ 2147483648 ≤ cw.toNat / 4294967296 % 4294967296 ∧ cw.toNat % 4294967296 = 2147483647) ∧
    (∃ cw, opField cw = 2#4 ∧ cw.toNat / 4294967296 % 4294967296 = 2147483647 ∧ cw.toNat % 4294967296 = 2147483648) ∧
    ∃ cw, opField cw = 4#4 :=
  ⟨⟨0x2800000007FFFFFFF#68, by decide⟩, ⟨0x27FFFFFFF80000000#68, by decide⟩, ⟨0x40000000000000018#68, by decide⟩⟩
/-- One word for each clause: op 0, the first and last reserved op, and each format N op with a stray operand bit. -/
theorem test_witness_IllegalWordRecordsIllegalCommand :
    (∃ cw : CommandWord, opField cw = 0#4) ∧ (∃ cw : CommandWord, (opField cw).toNat = 5) ∧
    (∃ cw : CommandWord, (opField cw).toNat = 15) ∧ (∃ cw : CommandWord, opField cw = 1#4 ∧ opndField cw ≠ 0#64) ∧
    ∃ cw : CommandWord, opField cw = 3#4 ∧ opndField cw ≠ 0#64 :=
  ⟨⟨0#68, by decide⟩,
   ⟨0x50000000000000000#68, by decide⟩, ⟨0xF0000000000000000#68, by decide⟩,
   ⟨0x18000000000000000#68, by decide⟩, ⟨0x30000000000000001#68, by decide⟩⟩
/-- R67, R68: one line for each form, letters of either case, a comment, the ends of a range. -/
theorem test_witness_AssemblerEmitsLegalWords :
    assemble "; no command".toList = .ok [] ∧
    assemble "ReSet ; again".toList = .ok [0x10000000000000000#68] ∧
    assemble "digest".toList = .ok [0x30000000000000000#68] ∧
    assemble "nop".toList = .ok [0x20000000000000000#68] ∧
    assemble "setbitcount 0xFFFFFFFFFFFFFFFF".toList = .ok [0x4FFFFFFFFFFFFFFFF#68] ∧
    assemble "update -2147483648, 2147483647".toList = .ok [0x2800000007FFFFFFF#68] ∧
    assemble "hash 0,3".toList = .ok [0x10000000000000000#68, 0x20000000000000003#68, 0x30000000000000000#68] :=
  ⟨by rfl, by rfl, by rfl, by rfl, by rfl, by rfl, by rfl⟩
/-- Values in range and one past each end. -/
theorem test_witness_AssemblerRangesAndPseudoCommands :
    signedNumber ['-', '2', '1', '4', '7', '4', '8', '3', '6', '4', '8'] = some (-2147483648) ∧
    signedNumber ['-', '2', '1', '4', '7', '4', '8', '3', '6', '4', '9'] = some (-2147483649) ∧
    signedNumber ['0', 'x', '7', 'F', 'f', 'f', 'f', 'f', 'f', 'f'] = some 2147483647 ∧
    signedNumber ['2', '1', '4', '7', '4', '8', '3', '6', '4', '8'] = some 2147483648 ∧
    unsignedNumber ['1', '8', '4', '4', '6', '7', '4', '4', '0', '7', '3', '7', '0', '9', '5', '5', '1', '6', '1', '6'] =
      some 18446744073709551616 ∧
    unsignedNumber ['0', 'x', '1', '8'] = some 24 := by decide
/-- The two ends of each pass: no t falls in two of them. -/
theorem test_witness_RoundOfEachPass :
    roundConstant 0 = 0x5A827999#32 ∧ roundConstant 19 = 0x5A827999#32 ∧ roundConstant 20 = 0x6ED9EBA1#32 ∧
    roundConstant 39 = 0x6ED9EBA1#32 ∧ roundConstant 40 = 0x8F1BBCDC#32 ∧ roundConstant 59 = 0x8F1BBCDC#32 ∧
    roundConstant 60 = 0xCA62C1D6#32 ∧ roundConstant 79 = 0xCA62C1D6#32 := by decide
/-- V-C1: W[15] stays, W[16] is the first expanded word, W[79] the last. -/
theorem test_witness_ScheduleExpansionRecurrence :
    let E := expandSchedule (packBlock (abc ++ padding 3 24#64))
    scheduleAt E 15 = 0x00000018#32 ∧ scheduleAt E 16 = 0xc2c4c700#32 ∧ scheduleAt E 79 = 0x822e0879#32 := by
  decide +kernel
/-- Two schedules that differ from W[16] on only. -/
theorem test_witness_CompressDependsOnHashAndBlockAlone :
    ∃ m n : Message, n.H = m.H ∧ (∀ j, j < 16 → scheduleAt n.W j = scheduleAt m.W j) ∧ n.W ≠ m.W :=
  ⟨Message.fresh, { Message.fresh with W := schedulePut Message.fresh.W 16 1#32 }, by decide +kernel⟩
theorem test_witness_CompressIsThePureFunction :
    ∃ (m : Message) (M : List Byte), M.length = 64 ∧
      ∀ j, j < 16 → scheduleAt m.W j = packWord ((M.drop (4 * j)).take 4) :=
  ⟨{ Message.fresh with W := packBlock (abc ++ padding 3 24#64) }, abc ++ padding 3 24#64, by decide +kernel⟩
/-- lenW at the last value below the boundary and at it. -/
theorem test_witness_AbsorbPlacesCountsAndCompresses :
    (holding (List.replicate 62 0x61#8)).lenW.val = 62 ∧ (holding (List.replicate 63 0x61#8)).lenW.val = 63 := by
  decide
theorem test_witness_AbsorbingFoldsBlocksAndPacksTheRest : (holding abc).Holds abc := by
  unfold Message.Holds; decide +kernel
/-- The two clauses of the padding's count meet at lenW 55 and 56. -/
theorem test_witness_CompressionCounts :
    zeroCount 0 = 55 ∧ zeroCount 55 = 0 ∧ zeroCount 56 = 63 ∧ zeroCount 63 = 56 := by decide
theorem test_witness_ResetDiscardsWhatWasAbsorbed :
    ∃ (s : State) (off' len' : Int), 0 ≤ off' ∧ 0 ≤ len' ∧ off' + len' = s.buf.len ∧ s.buf.len = 3 ∧
      s.inFlight = [] :=
  ⟨withBuf abc, 1, 2, by decide⟩
theorem test_witness_UpdateAbsorbsTheRange :
    ∃ (s : State) (off len : Int), 0 ≤ off ∧ 0 ≤ len ∧ off + len ≤ s.buf.len ∧ s.POISON = false ∧ s.inFlight = [] :=
  ⟨withBuf abc, 0, 3, by decide⟩
/-- A range with one raced byte and two that are not. -/
theorem test_witness_OnlyRacedBytesAreFree :
    ∃ (s : State) (off len : Int), 0 ≤ off ∧ 0 ≤ len ∧ off + len ≤ s.buf.len ∧ s.POISON = false ∧
      s.inFlight = [(1, 0x58#8)] :=
  ⟨{ withBuf abc with inFlight := [(1, 0x58#8)] }, 0, 3, by decide⟩
theorem test_witness_UpdateWhilePoisonedStaysPoisoned :
    ∃ (s : State) (off len : Int), 0 ≤ off ∧ 0 ≤ len ∧ off + len ≤ s.buf.len ∧ s.POISON = true :=
  ⟨{ withBuf abc with POISON := true, STATUS := 0x03#8 }, 0, 3, by decide⟩
/-- V-U7, V-U8, V-U4: each way out of bounds. -/
theorem test_witness_UpdateOutOfBoundsTakesBoundsFault :
    inBounds (-1) 0 (withBuf abc).buf.len = false ∧ inBounds 0 (-1) (withBuf abc).buf.len = false ∧
    inBounds 4 0 (withBuf abc).buf.len = false ∧ inBounds 3 0 (withBuf abc).buf.len = true := by decide
theorem test_witness_UpdateOfNoByteChangesNothing :
    ∃ (s : State) (off : Int), 0 ≤ off ∧ off = s.buf.len ∧ s.buf.len = 3 := ⟨withBuf abc, 3, by decide⟩
theorem test_witness_ChunkingInvariance :
    ∃ (s : State) (pieces : List (Nat × Nat)) (off len : Nat), s.POISON = false ∧ s.inFlight = [] ∧
      off + len ≤ s.buf.len ∧ (∀ p ∈ pieces, p.1 + p.2 ≤ s.buf.len) ∧
      pieces.flatMap (fun p => s.buf.slice p.1 p.2) = s.buf.slice off len :=
  ⟨withBuf abc, [(0, 1), (1, 0), (1, 2)], 0, 3, by decide⟩
theorem test_witness_OnlyTheRangeIsRead :
    ∃ (s t : State) (b : Memory) (off len : Int), b.len = s.buf.len ∧ b ≠ s.buf ∧
      exec (.update off len) s = .next t ∧ off = 0 ∧ len = 2 ∧ b.read 0 = s.buf.read 0 ∧ b.read 1 = s.buf.read 1 :=
  ⟨withBuf abc, _, Memory.ofBytes [0x61#8, 0x62#8, 0x7A#8], 0, 2, by decide, by decide, rfl, rfl, rfl, by decide,
    by decide⟩
theorem test_witness_DigestClosedForm :
    ∃ (s : State) (p : List Byte), s.POISON = false ∧ s.msg.Holds p :=
  ⟨{ State.reset with msg := holding abc }, abc, rfl, test_witness_AbsorbingFoldsBlocksAndPacksTheRest⟩
theorem test_witness_HashCommandsGiveSha1OfTheRange :
    ∃ (s : State) (off len : Int), 0 ≤ off ∧ 0 ≤ len ∧ off + len ≤ s.buf.len ∧
      (Instr.update off len).wellFormed = true ∧ s.inFlight = [] ∧
      s.port = [.command (encode .reset), .command (encode (.update off len)), .command (encode .digest)] :=
  ⟨{ withBuf abc with
      port := [.command (encode .reset), .command (encode (.update 0 3)), .command (encode .digest)] }, 0, 3,
    by decide⟩
theorem test_witness_LaunchedRunGivesTheDigestOfTheBuffer :
    ∃ (s : State) (bytes : List Byte), FreshEngine s ∧ HostBuffer bytes s ∧ NoRace s ∧ bytes.length ≤ 2147483647 ∧
      s.port = [.command (encode (.update 0 bytes.length)), .command (encode .digest)] :=
  ⟨{ withBuf abc with port := [.command (encode (.update 0 3)), .command (encode .digest)] }, abc,
    ⟨rfl, rfl, rfl, rfl⟩, rfl, rfl, by decide, rfl⟩
theorem test_witness_LengthFieldAfterSetbitcount :
    ∃ (s : State) (off len : Int) (p : List Byte), 0 ≤ off ∧ 0 ≤ len ∧ off + len ≤ s.buf.len ∧ s.POISON = false ∧
      s.inFlight = [] ∧ s.msg.Holds p :=
  ⟨{ withBuf abc with msg := holding abc }, 0, 3, abc, by decide, by decide, by decide, rfl, rfl,
    test_witness_AbsorbingFoldsBlocksAndPacksTheRest⟩
theorem test_witness_PowerOnResetLeavesAFreshEngine :
    ∃ (s : State) (rest : List HostAction), s.port = .powerOn :: rest ∧ s.STATUS = 0x0B#8 :=
  ⟨{ State.reset with port := [.powerOn], STATUS := 0x0B#8 }, [], rfl, rfl⟩
theorem test_witness_ResetAndPowerOnDifferInStatusAndDout :
    (∃ (s t u : State) (rest : List HostAction), s.port = .powerOn :: rest ∧ step s = .next t ∧
      exec .reset { s with port := rest } = .next u) ∧ FreshEngine State.reset :=
  ⟨⟨{ State.reset with port := [.powerOn] }, _, _, [], rfl, rfl, rfl⟩, ⟨rfl, rfl, rfl, rfl⟩⟩
theorem test_witness_InitialConstantsAfterEveryReset :
    (∃ s t, exec .reset s = .next t) ∧ (∃ s t, exec .digest s = .next t) ∧ ∃ s t, hostStep .powerOn s = .next t :=
  ⟨⟨State.reset, _, rfl⟩, ⟨State.reset, _, rfl⟩, ⟨State.reset, _, rfl⟩⟩
theorem test_witness_StepRunsTheDecodedCommand :
    (∃ (s : State) (cw : CommandWord) (rest : List HostAction) (i : Instr),
      s.port = .command cw :: rest ∧ decode cw = .legal i ∧ s.inFlight = []) ∧
    ∃ (s : State) (cw : CommandWord) (rest : List HostAction) (e : DecodeError),
      s.port = .command cw :: rest ∧ decode cw = .illegal e ∧ s.inFlight = [] :=
  ⟨⟨State.reset.withFetchWord 72 0x30000000000000000, 0x30000000000000000#68, [], .digest, by decide⟩,
   ⟨State.reset.withFetchWord 72 0x30000000000000001, 0x30000000000000001#68, [], .operandNotZero, by decide⟩⟩
theorem test_witness_IdleStepHoldsTheState : State.reset.port = [] := rfl
theorem test_witness_EveryCommandCompletes :
    ∃ (s : State) (cw : CommandWord) (rest : List HostAction), s.port = .command cw :: rest :=
  ⟨State.reset.withFetchWord 72 0x70000000000000000, _, _, rfl⟩
theorem test_witness_CommandsNeverWriteTheBuffer :
    ∃ (i : Instr) (s t : State), exec i s = .next t ∧ s.buf.len = 3 := ⟨.digest, withBuf abc, _, rfl, rfl⟩
theorem test_witness_OnlyDigestWritesDout :
    ∃ (s t : State), step s = .next t ∧ (∀ rest, s.port ≠ .powerOn :: rest) ∧
      (∀ cw rest, s.port = .command cw :: rest → decode cw ≠ .legal .digest) ∧ s.port ≠ [] :=
  ⟨State.reset.withFetchWord 72 0x40000000000000018, _, rfl, (by intro rest h; cases h),
    (by intro cw rest h; cases h; decide), (by intro h; cases h)⟩
theorem test_witness_StatusIsStickyUntilPowerOn :
    ∃ (s t : State), step s = .next t ∧ (∀ rest, s.port ≠ .powerOn :: rest) ∧ statusFault s.STATUS = true ∧
      statusDvalid s.STATUS = true ∧ s.port ≠ [] :=
  ⟨{ State.reset with STATUS := 0x0B#8, port := [.command 0x70000000000000000#68] }, _, rfl,
    (by intro rest h; cases h), by decide, by decide, (by intro h; cases h)⟩
theorem test_witness_OnlyTheTwoFaultsAreRaised :
    (∃ (s t : State), step s = .next t ∧ statusFault s.STATUS = false ∧ statusFault t.STATUS = true ∧
      statusCause t.STATUS = 1#2) ∧
    ∃ (s t : State), step s = .next t ∧ statusFault s.STATUS = false ∧ statusFault t.STATUS = true ∧
      statusCause t.STATUS = 2#2 :=
  ⟨⟨State.reset.withFetchWord 72 0x20000000000000001, _, rfl, by decide, by decide, by decide⟩,
   ⟨State.reset.withFetchWord 72 0x00000000000000000, _, rfl, by decide, by decide, by decide⟩⟩
/-- A BoundsFault; a read and an illegal word, both while poisoned; power-on reset while poisoned. -/
theorem test_witness_PoisonLifeCycle :
    (∃ (s t : State), exec (.update 0 1) s = .next t ∧ t.POISON = true) ∧
    (∃ (s t : State), step s = .next t ∧ (∀ rest, s.port ≠ .powerOn :: rest) ∧
      (∀ cw rest i, s.port = .command cw :: rest → decode cw ≠ .legal i) ∧ s.POISON = true ∧ s.port = [.readStatus]) ∧
    (∃ (s t : State), step s = .next t ∧ (∀ rest, s.port ≠ .powerOn :: rest) ∧
      (∀ cw rest i, s.port = .command cw :: rest → decode cw ≠ .legal i) ∧ s.POISON = true ∧
      s.port = [.command 0x30000000000000001#68]) ∧
    ∃ (s t : State), step s = .next t ∧ s.port = [.powerOn] ∧ s.POISON = true :=
  ⟨⟨State.reset, _, rfl, rfl⟩,
   ⟨{ State.reset with POISON := true, port := [.readStatus] }, _, rfl, (by intro rest h; cases h),
    (by intro cw rest i h; cases h), rfl, rfl⟩,
   ⟨{ State.reset with POISON := true, port := [.command 0x30000000000000001#68] }, _, rfl,
    (by intro rest h; cases h),
    (by
      intro cw rest i h
      cases h
      rw [show decode 0x30000000000000001#68 = .illegal .operandNotZero by decide]
      intro h
      cases h), rfl, rfl⟩,
   ⟨{ State.reset with POISON := true, port := [.powerOn] }, _, rfl, rfl, rfl⟩⟩

/-- The invariant, on a state a run reaches that is not the reset state: "abc" absorbed, a write in progress. -/
theorem test_witness_StepKeepsTheInvariant :
    Inv { withBuf abc with msg := holding abc, inFlight := [(2, 0x58#8)] } where
  bufCanonical := Laws.ofBytes_wf abc
  statusLegal := ⟨by decide, by decide, by decide⟩
  doutValid := by decide
  poisonFaulted := by decide
  blockPacked := fun _ => ⟨abc, test_witness_AbsorbingFoldsBlocksAndPacksTheRest⟩
  writesInBuf := by decide

theorem test_witness_RunEndingWithoutFaultNeverFaulted :
    ∃ (n k : Nat) (s t u : State), (∀ a ∈ s.port, a ≠ .powerOn) ∧ Inv s ∧
      Host.Core.run Sys2Proof.core n s = .next t ∧ Host.Core.run Sys2Proof.core k t = .next u ∧ NoFault u :=
  ⟨1, 1, { withBuf abc with msg := holding abc, inFlight := [(2, 0x58#8)] }, _, _, by decide,
    test_witness_StepKeepsTheInvariant, rfl, rfl, rfl⟩
theorem test_witness_HostReadsAnswerTheRegisters :
    (∃ (s : State) (d : Digest), statusDvalid s.STATUS = true ∧ s.DOUT = some d) ∧
    statusDvalid State.reset.STATUS = false :=
  ⟨⟨{ State.reset with STATUS := 0x08#8, DOUT := some (Vector.replicate 20 0xAA#8) }, _, by decide, rfl⟩, by decide⟩
theorem test_witness_ReadAfterDigestReturnsItsDigest :
    ∃ (s : State) (rest : List HostAction), s.POISON = false ∧
      s.port = .command (encode .digest) :: .readDout :: rest :=
  ⟨{ State.reset with port := [.command (encode .digest), .readDout] }, [], rfl, rfl⟩
theorem test_witness_CompletedHostWriteIsAbsorbed :
    ∃ (s : State) (i : Nat) (b c : Byte), s.buf.wf = true ∧ i < s.buf.len ∧ i ≤ 2147483647 ∧ s.POISON = false ∧
      s.inFlight = [] ∧ s.port = [.writeBuf i b, .command (encode (.update i 1)), .writeBuf i c] :=
  ⟨{ withBuf abc with
      port := [.writeBuf 2 0x58#8, .command (encode (.update 2 1)), .writeBuf 2 0x00#8] }, 2, 0x58#8, 0x00#8,
    by decide, by decide, by decide, rfl, rfl, rfl⟩
theorem test_witness_BufferHoldsAnyByteList :
    ∃ m m' : Memory, m.wf = true ∧ m'.wf = true ∧ m.len = m'.len ∧ m.cells ≠ [] :=
  ⟨Memory.ofBytes abc, Memory.ofBytes abc, by decide, by decide, rfl, by decide⟩

end Sys2Proof.Tests
end

section
/-!
The host's side of a command and the canonical form of the buffer (00_scope.md R8, R14; 20_memory.md R40, R47).
-/

namespace Sys2Proof.Proofs

open Sys2Proof.Machine Sys2Proof.Laws

/-! ### No command touches the host's side -/

/-- The frame of a command on the host's side (20_memory.md R47): the message state, STATUS, POISON, DOUT and the draw
counter are all it can write. -/
theorem exec_keeps_hostSide {i : Instr} {s t : State} (h : exec i s = .next t) :
    t.buf = s.buf ∧ t.port = s.port ∧ t.inFlight = s.inFlight ∧ t.received = s.received := by
  obtain ⟨o, l, bs, -, -, -, rfl⟩ | ⟨o, l, -, -, rfl⟩ | ⟨v, -, rfl⟩ | ⟨-, rfl⟩ | ⟨-, rfl⟩ := exec_cases h
  case inl =>
    obtain ⟨m, n, hread, -⟩ := absorbRead_cases bs (rangeRaced s o.toNat l.toNat) s
    simp [hread]
  all_goals simp

/-- Settles O42: the buffer itself is kept, so every byte of it reads as before. -/
theorem commandsNeverWriteTheBuffer : Obligations.CommandsNeverWriteTheBuffer := by
  intro i s t h
  obtain ⟨hbuf, hrest⟩ := exec_keeps_hostSide h
  exact ⟨fun a => by rw [hbuf], hbuf, hrest⟩

/-! ### Canonical cells are determined by what they read as -/

theorem cellsGet_of_not_listed {cs : List Host.Cell} {i : Nat} (h : ∀ c ∈ cs, c.1 ≠ i) :
    cellsGet cs i = unlistedByte := by
  induction cs with
  | nil => rfl
  | cons c cs ih =>
    obtain ⟨hne, htail⟩ := List.forall_mem_cons.1 h
    simp [cellsGet, hne, ih htail]

theorem cellsGet_of_riseAbove {cs : List Host.Cell} {k i : Nat} (h : RiseAbove k cs) (hi : i ≤ k) :
    cellsGet cs i = unlistedByte :=
  cellsGet_of_not_listed fun c hc => by have := h.2 c hc; omega

/-- A first index below that of the other cells is impossible when both read alike there: the other cells read as
`unlistedByte` below their first index. -/
theorem head_index_le {a b : Nat} {v w : Byte} {cs ds : List Host.Cell} (hv : v ≠ unlistedByte)
    (hd : RiseAbove b ds) (h : cellsGet ((a, v) :: cs) a = cellsGet ((b, w) :: ds) a) : b ≤ a := by
  refine Nat.le_of_not_lt fun hlt => hv ?_
  have hba : b ≠ a := Nat.ne_of_gt hlt
  simpa only [cellsGet, ↓reduceIte, hba, cellsGet_of_riseAbove hd (Nat.le_of_lt hlt)] using h

theorem cells_eq_of_get_eq : ∀ {cs ds : List Host.Cell},
    cellsRise cs = true → cellsRise ds = true →
    (∀ c ∈ cs, c.2 ≠ unlistedByte) → (∀ c ∈ ds, c.2 ≠ unlistedByte) →
    (∀ i, cellsGet cs i = cellsGet ds i) → cs = ds
  | [], [], _, _, _, _, _ => rfl
  | [], (b, w) :: ds, _, _, _, hd, h => by
    have := h b
    simp only [cellsGet, ↓reduceIte] at this
    exact absurd this.symm (hd (b, w) (by simp))
  | (a, v) :: cs, [], _, _, hc, _, h => by
    have := h a
    simp only [cellsGet, ↓reduceIte] at this
    exact absurd this (hc (a, v) (by simp))
  | (a, v) :: cs, (b, w) :: ds, rc, rd, hc, hd, h => by
    have ac := (rise_cons_iff a v cs).1 rc
    have ad := (rise_cons_iff b w ds).1 rd
    obtain ⟨hv, hcs⟩ := List.forall_mem_cons.1 hc
    obtain ⟨hw, hds⟩ := List.forall_mem_cons.1 hd
    obtain rfl : a = b := Nat.le_antisymm (head_index_le hw ac (h b).symm) (head_index_le hv ad (h a))
    have hvw : v = w := by simpa [cellsGet] using h a
    have tails : ∀ i, cellsGet cs i = cellsGet ds i := by
      intro i
      by_cases hi : a = i
      · rw [cellsGet_of_riseAbove ac (Nat.le_of_eq hi.symm), cellsGet_of_riseAbove ad (Nat.le_of_eq hi.symm)]
      · simpa [cellsGet, hi] using h i
    rw [hvw, cells_eq_of_get_eq ac.1 ad.1 hcs hds tails]

/-! ### Buffers and byte lists -/

theorem cellsGet_of_len_le {m : Memory} (hm : m.wf = true) {i : Nat} (hi : m.len ≤ i) :
    cellsGet m.cells i = unlistedByte :=
  cellsGet_of_not_listed fun c hc => by have := ((wf_iff m).1 hm).2 c hc; omega

/-- Two canonical buffers of one length that read alike are one buffer. -/
theorem memory_eq_of_read_eq {m n : Memory} (hm : m.wf = true) (hn : n.wf = true) (hlen : m.len = n.len)
    (h : ∀ i, m.read i = n.read i) : m = n := by
  have get_eq : ∀ i, cellsGet m.cells i = cellsGet n.cells i := by
    intro i
    by_cases hi : i < m.len
    · simpa [Memory.read, hi, hlen ▸ hi] using h i
    · rw [cellsGet_of_len_le hm (by omega), cellsGet_of_len_le hn (by omega)]
  obtain ⟨rm, cm⟩ := (wf_iff m).1 hm
  obtain ⟨rn, cn⟩ := (wf_iff n).1 hn
  have cells_eq : m.cells = n.cells :=
    cells_eq_of_get_eq rm rn (fun c hc => (cm c hc).2) (fun c hc => (cn c hc).2) get_eq
  calc m = ⟨m.len, m.cells⟩ := rfl
    _ = ⟨n.len, n.cells⟩ := by rw [hlen, cells_eq]

@[simp] theorem ofBytes_len (bs : List Byte) : (Memory.ofBytes bs).len = bs.length := rfl

@[simp] theorem bytes_length (m : Memory) : m.bytes.length = m.len := by simp [Memory.bytes]

/-- The bytes of a buffer are what its indexes read as. -/
theorem getElem?_bytes (m : Memory) (i : Nat) : m.bytes[i]? = m.read i := by
  by_cases hi : i < m.len <;> simp [Memory.bytes, Memory.read, hi]

theorem bytes_ofBytes (bs : List Byte) : (Memory.ofBytes bs).bytes = bs :=
  List.ext_getElem? fun i => by rw [getElem?_bytes, read_ofBytes]

theorem ofBytes_bytes {m : Memory} (hm : m.wf = true) : Memory.ofBytes m.bytes = m :=
  memory_eq_of_read_eq (ofBytes_wf m.bytes) hm (by simp) fun i => by rw [read_ofBytes, getElem?_bytes]

/-- Settles O53: the reads determine a canonical buffer, and a buffer made of bytes reads as those bytes. -/
theorem bufferHoldsAnyByteList : Obligations.BufferHoldsAnyByteList :=
  ⟨fun bs => ⟨ofBytes_wf bs, ofBytes_len bs, read_ofBytes bs, bytes_ofBytes bs⟩,
   fun _ hm => ofBytes_bytes hm,
   fun _ _ hm hm' hlen h => memory_eq_of_read_eq hm hm' hlen h⟩

end Sys2Proof.Proofs
end

section
/-!
COMPRESS as the pure function of a hash value and a block (43_compress.md R97, R110).
-/

namespace Sys2Proof.Proofs

open Sys2Proof.Machine Sys2Proof.Laws

@[simp] theorem blockSchedule_length (M : List Byte) (n : Nat) : (blockSchedule M n).length = 16 + n := by
  induction n with
  | zero => simp [blockSchedule]
  | succ n ih => simp [blockSchedule, ih, Nat.add_assoc]

/-- The word that enters at `16 + n`, by the recurrence over the words before it. -/
theorem blockSchedule_succ (M : List Byte) (n : Nat) :
    blockSchedule M (n + 1) = blockSchedule M n ++ [nextWord (blockSchedule M n)] := rfl

theorem blockSchedule_succ_getD_of_lt (M : List Byte) {n t : Nat} (h : t < 16 + n) :
    (blockSchedule M (n + 1)).getD t 0#32 = (blockSchedule M n).getD t 0#32 := by
  have hlt : t < (blockSchedule M n).length := by rwa [blockSchedule_length]
  rw [blockSchedule_succ, List.getD_eq_getElem?_getD, List.getD_eq_getElem?_getD, List.getElem?_append_left hlt]

theorem blockSchedule_succ_getD_last (M : List Byte) (n : Nat) :
    (blockSchedule M (n + 1)).getD (16 + n) 0#32 = nextWord (blockSchedule M n) := by
  rw [blockSchedule_succ, List.getD_eq_getElem?_getD, ← blockSchedule_length M n, List.getElem?_concat_length,
    Option.getD_some]

/-- One expansion step writes its own word and no other. -/
theorem scheduleAt_expandAt (W : Schedule) {t j : Nat} (ht : t < 80) (hj : j < 80) :
    scheduleAt (expandAt W t) j = if j = t then
      rotl32 (scheduleAt W (t - 3) ^^^ scheduleAt W (t - 8) ^^^ scheduleAt W (t - 14) ^^^ scheduleAt W (t - 16)) 1
    else scheduleAt W j := scheduleAt_put W _ ht hj

/-- After `n` expansion steps of a packed block, W holds the first `16 + n` schedule words of the block. -/
theorem scheduleAt_expansion {W : Schedule} {M : List Byte}
    (hW : ∀ j, j < 16 → scheduleAt W j = packWord ((M.drop (4 * j)).take 4)) {n : Nat} (hn : n ≤ 64) :
    ∀ t, t < 16 + n → scheduleAt ((List.range' 16 n).foldl expandAt W) t = (blockSchedule M n).getD t 0#32 := by
  induction n with
  | zero =>
    intro t ht
    simp [blockSchedule, hW t (by omega), List.getD_eq_getElem?_getD, ht]
  | succ n ih =>
    intro t ht
    have earlier := ih (by omega)
    rw [List.range'_1_concat, List.foldl_append, List.foldl_cons, List.foldl_nil,
      scheduleAt_expandAt _ (by omega) (by omega)]
    split
    · subst t
      rw [earlier _ (by omega), earlier _ (by omega), earlier _ (by omega), earlier _ (by omega),
        blockSchedule_succ_getD_last, nextWord, blockSchedule_length]
    · rw [earlier t (by omega), blockSchedule_succ_getD_of_lt M (by omega)]

/-- The rounds read the eighty words of W alone (43_compress.md R106). -/
theorem runRounds_congr {W : Schedule} {ws : List Word} (h : ∀ t, t < 80 → scheduleAt W t = ws.getD t 0#32)
    (v : Working) : runRounds W v = (List.range 80).foldl (fun v t => roundStep t (ws.getD t 0#32) v) v := by
  refine List.foldl_rel (r := Eq) rfl fun t ht v v' hv => ?_
  rw [hv, h t (List.mem_range.1 ht)]

/-- COMPRESS of a block packed in W[0..15] (43_compress.md R110). -/
theorem compress_H_of_packed {m : Message} {M : List Byte}
    (hW : ∀ j, j < 16 → scheduleAt m.W j = packWord ((M.drop (4 * j)).take 4)) :
    (compress m).H = pureCompress m.H M := by
  have expanded : ∀ t, t < 80 → scheduleAt (expandSchedule m.W) t = (blockSchedule M 64).getD t 0#32 :=
    scheduleAt_expansion hW (Nat.le_refl 64)
  rw [compress_H, runRounds_congr expanded, pureCompress]

end Sys2Proof.Proofs
end

section
/-!
ABSORB on a message state that holds the bytes of its block, and the blocks of a byte list (10_state.md R27;
41_intake.md R75, R77).
-/

namespace Sys2Proof.Proofs

open Sys2Proof.Machine Sys2Proof.Laws

/-! ### Placing a byte in its word -/

theorem holds_length_lt {m : Message} {p : List Byte} (h : m.Holds p) : p.length < 64 := h.1 ▸ m.lenW.isLt

/-- A message state whose block is empty (10_state.md R27, R38). -/
theorem holds_nil_iff (m : Message) : m.Holds [] ↔ m.lenW = 0 ∧ m.W = Vector.replicate 80 0#32 := by
  have empty : packBlock [] = Vector.replicate 80 0#32 := schedule_ext fun t ht => by
    simp [scheduleAt_packBlock [] ht, packWord]
  rw [Message.Holds, empty, List.length_nil, Fin.ext_iff, Fin.val_zero]

theorem fresh_holds_nil : Message.fresh.Holds [] := (holds_nil_iff _).2 ⟨rfl, rfl⟩

/-- One byte more in a block of words: it is shifted into word `p.length / 4`, and the other words stay. -/
theorem packWord_block_append (p : List Byte) (b : Byte) (t : Nat) :
    packWord (((p ++ [b]).drop (4 * t)).take 4) =
      if t = p.length / 4 then (packWord ((p.drop (4 * t)).take 4) <<< 8) ||| b.setWidth 32
      else packWord ((p.drop (4 * t)).take 4) := by
  obtain hlt | rfl | hgt := Nat.lt_trichotomy t (p.length / 4)
  · have whole : 4 ≤ (p.drop (4 * t)).length := by simp; omega
    rw [if_neg (by omega), List.drop_append_of_le_length (by omega), List.take_append_of_le_length whole]
  · have short : (p.drop (4 * (p.length / 4))).length < 4 := by simp; omega
    have room : (p.drop (4 * (p.length / 4)) ++ [b]).length ≤ 4 := by rw [List.length_append]; exact short
    rw [if_pos rfl, List.drop_append_of_le_length (by omega), List.take_of_length_le room, packWord_append,
      List.take_of_length_le (Nat.le_of_lt short)]
  · rw [if_neg (by omega), List.drop_of_length_le (by simp; omega), List.drop_of_length_le (by omega)]

theorem placeByte_W_of_holds {m : Message} {p : List Byte} (h : m.Holds p) (b : Byte) :
    (placeByte m b).W = packBlock (p ++ [b]) := by
  have hp := holds_length_lt h
  obtain ⟨hlen, hW⟩ := h
  refine schedule_ext fun t ht => ?_
  rw [placeByte, hlen, scheduleAt_put _ _ (by omega) ht, hW, scheduleAt_packBlock (p ++ [b]) ht, packWord_block_append,
    scheduleAt_packBlock p ht, scheduleAt_packBlock p (by omega)]
  split
  · subst t; rfl
  · rfl

/-! ### One ABSORB -/

/-- Below the block boundary ABSORB adds its byte to the held ones and leaves H. -/
theorem absorb_below_boundary {m : Message} {p : List Byte} (h : m.Holds p) (hp : p.length + 1 < 64) (b : Byte) :
    (absorb m b).Holds (p ++ [b]) ∧ (absorb m b).H = m.H := by
  rw [absorb_of_lt m b (h.1 ▸ hp)]
  exact ⟨⟨by simp [h.1], placeByte_W_of_holds h b⟩, rfl⟩

/-- At the block boundary ABSORB folds the block into H and holds nothing (41_intake.md R77). -/
theorem absorb_at_boundary {m : Message} {p : List Byte} (h : m.Holds p) (hp : p.length = 63) (b : Byte) :
    (absorb m b).Holds [] ∧ (absorb m b).H = pureCompress m.H (p ++ [b]) := by
  have packed : ∀ j, j < 16 → scheduleAt (placeByte m b).W j = packWord (((p ++ [b]).drop (4 * j)).take 4) :=
    fun j hj => by rw [placeByte_W_of_holds h, scheduleAt_packBlock _ (by omega)]
  rw [absorb_of_last m b (h.1.trans hp), holds_nil_iff]
  exact ⟨⟨rfl, rfl⟩, compress_H_of_packed packed⟩

/-! ### Whole blocks and the rest -/

/-- The bytes after the last whole block of 64. -/
def blockRest (S : List Byte) : List Byte := S.drop (64 * (S.length / 64))

theorem blockRest_of_lt {S : List Byte} (h : S.length < 64) : blockRest S = S := by
  simp [blockRest, Nat.div_eq_of_lt h]

theorem compressBlocks_of_lt (Hv : Hash) {S : List Byte} (h : S.length < 64) : compressBlocks Hv S = Hv := by
  simp [compressBlocks, Nat.div_eq_of_lt h, blocks]

theorem length_div_block_append {B : List Byte} (hB : B.length = 64) (S : List Byte) :
    (B ++ S).length / 64 = S.length / 64 + 1 := by
  rw [List.length_append]; omega

theorem blockRest_block_append {B : List Byte} (hB : B.length = 64) (S : List Byte) :
    blockRest (B ++ S) = blockRest S := by
  rw [blockRest, length_div_block_append hB, Nat.mul_succ, Nat.add_comm, ← hB, List.drop_length_add_append, hB, blockRest]

theorem compressBlocks_block_append (Hv : Hash) {B : List Byte} (hB : B.length = 64) (S : List Byte) :
    compressBlocks Hv (B ++ S) = compressBlocks (pureCompress Hv B) S := by
  rw [compressBlocks, length_div_block_append hB, blocks, List.take_left' hB, List.drop_left' hB, List.foldl_cons,
    compressBlocks]

/-! ### A sequence of ABSORBs -/

/-- By induction on the bytes: a byte below the boundary moves from `bs` to the held ones, and the 64th byte of a block
starts the rest of `bs` from an empty block. -/
theorem absorbAll_folds_blocks (bs : List Byte) : ∀ {m : Message} {p : List Byte}, m.Holds p →
    (absorbAll m bs).Holds (blockRest (p ++ bs)) ∧ (absorbAll m bs).H = compressBlocks m.H (p ++ bs) := by
  induction bs with
  | nil =>
    intro m p h
    have hp := holds_length_lt h
    simpa [blockRest_of_lt hp, compressBlocks_of_lt m.H hp] using h
  | cons b bs ih =>
    intro m p h
    rw [absorbAll_cons, List.append_cons]
    by_cases hp : p.length + 1 < 64
    · obtain ⟨hholds, hH⟩ := absorb_below_boundary h hp b
      simpa only [hH] using ih hholds
    · have hlast : p.length = 63 := by have := holds_length_lt h; omega
      have hblock : (p ++ [b]).length = 64 := by simp [hlast]
      obtain ⟨hholds, hH⟩ := absorb_at_boundary h hlast b
      rw [blockRest_block_append hblock, compressBlocks_block_append m.H hblock, ← hH]
      exact ih hholds

theorem absorbAll_bitCount (bs : List Byte) (m : Message) :
    (absorbAll m bs).bitCount = m.bitCount + BitVec.ofNat 64 (8 * bs.length) := by
  induction bs generalizing m with
  | nil => simp
  | cons b bs ih =>
    rw [absorbAll_cons, ih, absorb_bitCount, List.length_cons, Nat.mul_succ, BitVec.ofNat_add, BitVec.add_assoc,
      BitVec.add_comm 8#64]

/-- Settles O16: each of the three clauses is what a sequence of ABSORBs does, by induction on its bytes. -/
theorem absorbingFoldsBlocksAndPacksTheRest : Obligations.AbsorbingFoldsBlocksAndPacksTheRest := by
  intro m p bs h
  obtain ⟨hholds, hH⟩ := absorbAll_folds_blocks bs h
  exact ⟨hholds, hH, absorbAll_bitCount bs m⟩

end Sys2Proof.Proofs
end

section
/-!
What commands and steps do to the engine's registers: which of them write DOUT, STATUS and POISON, and that every
command completes (10_state.md R31 to R37; 60_exceptions.md R115 to R124).
-/

namespace Sys2Proof.Proofs

open Sys2Proof.Machine Sys2Proof.Laws

/-! ### The frame of an in-bounds UPDATE -/

section
variable (bs : List Byte) (r : Bool) (s : State)

@[simp] theorem absorbRead_DOUT : (absorbRead bs r s).DOUT = s.DOUT := by
  obtain ⟨m, n, hread, -⟩ := absorbRead_cases bs r s; rw [hread]
@[simp] theorem absorbRead_STATUS : (absorbRead bs r s).STATUS = s.STATUS := by
  obtain ⟨m, n, hread, -⟩ := absorbRead_cases bs r s; rw [hread]
@[simp] theorem absorbRead_POISON : (absorbRead bs r s).POISON = s.POISON := by
  obtain ⟨m, n, hread, -⟩ := absorbRead_cases bs r s; rw [hread]

theorem absorbRead_msg (h : s.POISON = false) : (absorbRead bs r s).msg = absorbAll s.msg bs := by
  obtain ⟨m, n, hread, hmsg⟩ := absorbRead_cases bs r s; rw [hread]; exact (hmsg h).1

end

/-! ### Completion (10_state.md R37) -/

theorem exec_completes (i : Instr) (s : State) : ∃ t, exec i s = .next t := by
  cases i with
  | reset => exact ⟨_, rfl⟩
  | update o l =>
    cases hb : inBounds o l s.buf.len
    · exact ⟨_, update_of_outOfBounds s o l hb⟩
    · obtain ⟨bs, -, -, -, hexec⟩ := update_of_inBounds s o l hb
      exact ⟨_, hexec⟩
  | digest => exact ⟨_, rfl⟩
  | setbitcount v => exact ⟨_, rfl⟩

theorem dispatchCommand_completes (cw : CommandWord) (s : State) : ∃ t, dispatchCommand cw s = .next t := by
  unfold dispatchCommand
  split
  · exact exec_completes _ s
  · exact ⟨_, rfl⟩

theorem dispatchCommand_keeps_port {cw : CommandWord} {s t : State} (h : dispatchCommand cw s = .next t) :
    t.port = s.port := by
  obtain ⟨i, -, hexec⟩ | ⟨e, -, rfl⟩ := dispatchCommand_cases h
  · exact (exec_keeps_hostSide hexec).2.1
  · rfl

/-- Settles O41: a legal word completes as its command does, and an illegal one with the fault recorded. -/
theorem everyCommandCompletes : Obligations.EveryCommandCompletes := by
  refine ⟨exec_completes, fun s cw rest hport => ?_⟩
  obtain ⟨u, hu⟩ := dispatchCommand_completes cw { s with port := rest }
  refine ⟨landWrites u, ?_, dispatchCommand_keeps_port hu⟩
  rw [step_of_port_cons hport, hostStep, hu, completeCommand_next]

/-! ### What a step does to the engine -/

/-- A step leaves the engine's registers, or dispatches a command word, or is power-on reset. -/
theorem step_engine_cases {s t : State} (h : step s = .next t) :
    (t.DOUT = s.DOUT ∧ t.STATUS = s.STATUS ∧ t.POISON = s.POISON) ∨
    (∃ cw rest u, s.port = .command cw :: rest ∧ dispatchCommand cw { s with port := rest } = .next u ∧
      t = landWrites u) ∨
    ∃ rest, s.port = .powerOn :: rest ∧ t = powerOnReset { s with port := rest } := by
  obtain ⟨-, rfl⟩ | ⟨a, rest, hport, hstep⟩ := step_cases h
  · exact .inl ⟨rfl, rfl, rfl⟩
  obtain ⟨cw, u, rfl, hu, rfl⟩ | ⟨-, rfl⟩ | ⟨-, rfl⟩ | ⟨bytes, -, rfl⟩ | ⟨i, b, -, -, rfl⟩ | ⟨i, b, -, -, rfl⟩ |
    ⟨rfl, rfl⟩ := hostStep_cases hstep
  case inl => exact .inr (.inl ⟨cw, rest, u, hport, hu, rfl⟩)
  case inr.inr.inr.inr.inr.inr => exact .inr (.inr ⟨rest, hport, rfl⟩)
  all_goals exact .inl ⟨rfl, rfl, rfl⟩

/-! ### DOUT and DVALID -/

theorem exec_keeps_dout {i : Instr} {s t : State} (h : exec i s = .next t) (hi : i ≠ .digest) :
    t.DOUT = s.DOUT ∧ statusDvalid t.STATUS = statusDvalid s.STATUS := by
  obtain ⟨o, l, bs, -, -, -, rfl⟩ | ⟨o, l, -, -, rfl⟩ | ⟨v, -, rfl⟩ | ⟨-, rfl⟩ | ⟨rfl, -⟩ := exec_cases h
  case inr.inr.inr.inr => exact absurd rfl hi
  all_goals simp

theorem dispatchCommand_keeps_dout {cw : CommandWord} {s t : State} (h : dispatchCommand cw s = .next t)
    (hcw : decode cw ≠ .legal .digest) : t.DOUT = s.DOUT ∧ statusDvalid t.STATUS = statusDvalid s.STATUS := by
  obtain ⟨i, hi, hexec⟩ | ⟨e, -, rfl⟩ := dispatchCommand_cases h
  · exact exec_keeps_dout hexec fun hdigest => hcw (hdigest ▸ hi)
  · simp

/-- Settles O43: a command word other than digest keeps both, and so does a step that is no command. -/
theorem onlyDigestWritesDout : Obligations.OnlyDigestWritesDout := by
  intro s t h hpower hdigest
  obtain ⟨hdout, hstatus, -⟩ | ⟨cw, rest, u, hport, hu, rfl⟩ | ⟨rest, hport, -⟩ := step_engine_cases h
  · exact ⟨hdout, by rw [hstatus]⟩
  · obtain ⟨hdout, hdvalid⟩ := dispatchCommand_keeps_dout hu (hdigest cw rest hport)
    exact ⟨hdout, hdvalid⟩
  · exact absurd hport (hpower rest)

/-! ### STATUS -/

/-- What a set FAULT and a set DVALID promise of the next STATUS (60_exceptions.md R123, R124). -/
def KeepsFlags (st st' : BitVec 8) : Prop :=
  (statusFault st = true → statusFault st' = true ∧ statusCause st' = statusCause st) ∧
  (statusDvalid st = true → statusDvalid st' = true)

theorem keepsFlags_refl (st : BitVec 8) : KeepsFlags st st := ⟨fun hfault => ⟨hfault, rfl⟩, id⟩

theorem keepsFlags_recordFault (st : BitVec 8) (c : FaultCause) : KeepsFlags st (statusRecordFault st c) :=
  ⟨fun hfault => by simp [hfault], by simp⟩

theorem keepsFlags_withDvalid (st : BitVec 8) : KeepsFlags st (statusWithDvalid st) :=
  ⟨fun hfault => by simp [hfault], by simp⟩

/-- The three things a command word can do to STATUS. -/
theorem dispatchCommand_STATUS {cw : CommandWord} {s t : State} (h : dispatchCommand cw s = .next t) :
    t.STATUS = s.STATUS ∨ (∃ c, t.STATUS = statusRecordFault s.STATUS c) ∨ t.STATUS = statusWithDvalid s.STATUS := by
  obtain ⟨i, -, hexec⟩ | ⟨e, -, rfl⟩ := dispatchCommand_cases h
  · obtain ⟨o, l, bs, -, -, -, rfl⟩ | ⟨o, l, -, -, rfl⟩ | ⟨v, -, rfl⟩ | ⟨-, rfl⟩ | ⟨-, rfl⟩ := exec_cases hexec
    · exact .inl (absorbRead_STATUS ..)
    · exact .inr (.inl ⟨_, rfl⟩)
    · exact .inl rfl
    · exact .inl rfl
    · exact .inr (.inr rfl)
  · exact .inr (.inl ⟨_, rfl⟩)

/-- Settles O44: none of the three writes of STATUS by a command word clears a flag or replaces a recorded cause. -/
theorem statusIsStickyUntilPowerOn : Obligations.StatusIsStickyUntilPowerOn := by
  intro s t h hpower
  change KeepsFlags s.STATUS t.STATUS
  obtain ⟨-, hstatus, -⟩ | ⟨cw, rest, u, -, hu, rfl⟩ | ⟨rest, hport, -⟩ := step_engine_cases h
  · rw [hstatus]; exact keepsFlags_refl _
  · rw [landWrites_STATUS]
    obtain hsame | ⟨c, hrecord⟩ | hdvalid := dispatchCommand_STATUS hu
    · rw [hsame]; exact keepsFlags_refl _
    · rw [hrecord]; exact keepsFlags_recordFault _ c
    · rw [hdvalid]; exact keepsFlags_withDvalid _
  · exact absurd hport (hpower rest)

/-! ### POISON -/

/-- POISON after each command (10_state.md R33; 60_exceptions.md R117, R124). -/
theorem exec_POISON_iff {i : Instr} {s t : State} (h : exec i s = .next t) :
    t.POISON = true ↔
      (∃ o l, i = .update o l ∧ ¬ (0 ≤ o ∧ 0 ≤ l ∧ o + l ≤ (s.buf.len : Int))) ∨
      (s.POISON = true ∧ i ≠ .reset ∧ i ≠ .digest) := by
  simp only [← inBounds_iff]
  obtain ⟨o, l, bs, rfl, hin, -, rfl⟩ | ⟨o, l, rfl, hout, rfl⟩ | ⟨v, rfl, rfl⟩ | ⟨rfl, rfl⟩ | ⟨rfl, rfl⟩ := exec_cases h
  · simp [hin]
  · exact iff_of_true (boundsFaultEntry_POISON s) (.inl ⟨o, l, rfl, by rw [hout]; exact Bool.false_ne_true⟩)
  · simp
  · simp
  · simp

/-- Settles O46: the commands by their cases, and of the other steps an illegal word is the only one to reach the
engine. -/
theorem poisonLifeCycle : Obligations.PoisonLifeCycle := by
  refine ⟨fun i s t h => exec_POISON_iff h, fun s t h => ⟨fun hpower hillegal => ?_, fun rest hport => ?_⟩⟩
  · obtain ⟨-, -, hpoison⟩ | ⟨cw, rest, u, hport, hu, rfl⟩ | ⟨rest, hport, -⟩ := step_engine_cases h
    · exact hpoison
    · obtain ⟨i, hi, -⟩ | ⟨e, -, rfl⟩ := dispatchCommand_cases hu
      · exact absurd hi (hillegal cw rest i hport)
      · rfl
    · exact absurd hport (hpower rest)
  · rw [step_of_port_cons hport] at h
    cases h
    rfl

/-! ### The initial constants and the host's reads -/

/-- The two commands and the input that re-initialise the message state. -/
theorem msg_fresh_of_reset {s t : State}
    (h : exec .reset s = .next t ∨ exec .digest s = .next t ∨ hostStep .powerOn s = .next t) :
    t.msg = Message.fresh := by
  obtain h | h | h := h
  · cases h; exact resetMessage_msg s
  · cases h; exact resetMessage_msg s
  · cases h; exact powerOnReset_msg s

/-- Settles O38: all of them leave the fresh message state, whose H is the initial constants. -/
theorem initialConstantsAfterEveryReset : Obligations.InitialConstantsAfterEveryReset :=
  fun _ => ⟨fun t h => by rw [msg_fresh_of_reset h, fresh_H, initialHash], rfl⟩

theorem hostStep_readDout (s : State) :
    hostStep .readDout s = .next { s with received := .dout (hostReadDout s) :: s.received } := rfl

/-- Settles O50: a read delivers `hostReadDout` or `hostReadStatus` and writes nothing but what was received. -/
theorem hostReadsAnswerTheRegisters : Obligations.HostReadsAnswerTheRegisters := by
  intro s
  obtain ⟨hreserved, hfields⟩ := statusRead_fields s.STATUS
  refine ⟨fun d hvalid hdout => ?_, fun hvalid => ?_, hostReadStatus s, rfl, hreserved, hfields⟩
  · simp [hostStep_readDout, hostReadDout, hvalid, hdout]
  · simp [hostStep_readDout, hostReadDout, hvalid]

end Sys2Proof.Proofs
end

section
/-!
The invariant of the machine between commands: the reset state meets it and every step keeps it (10_state.md R27, R32,
R33; 93_implementation_defined.md U8).
-/

namespace Sys2Proof.Proofs

open Sys2Proof.Machine Sys2Proof.Laws Sys2Proof.Safety

/-! ### Legal values of STATUS -/

theorem statusLegal_zero : StatusLegal 0x00#8 := by
  unfold StatusLegal; decide

theorem faultCauseCode_ne (c : FaultCause) : faultCauseCode c ≠ 3#2 ∧ faultCauseCode c ≠ 0#2 := by
  cases c <;> decide

theorem statusLegal_recordFault {st : BitVec 8} (h : StatusLegal st) (c : FaultCause) :
    StatusLegal (statusRecordFault st c) := by
  obtain ⟨hreserved, hcause, hfault⟩ := h
  obtain ⟨hthree, hzero⟩ := faultCauseCode_ne c
  cases hf : statusFault st
  · simp [StatusLegal, hf, hreserved, hthree, hzero]
  · simp [StatusLegal, hf, hreserved, hcause, hfault.1 hf]

theorem statusLegal_withDvalid {st : BitVec 8} (h : StatusLegal st) : StatusLegal (statusWithDvalid st) := by
  simpa [StatusLegal] using h

theorem dispatchCommand_keeps_statusLegal {cw : CommandWord} {s t : State} (h : dispatchCommand cw s = .next t)
    (hs : StatusLegal s.STATUS) : StatusLegal t.STATUS := by
  obtain hsame | ⟨c, hrecord⟩ | hdvalid := dispatchCommand_STATUS h
  · rwa [hsame]
  · rw [hrecord]; exact statusLegal_recordFault hs c
  · rw [hdvalid]; exact statusLegal_withDvalid hs

/-! ### What a command keeps of each clause -/

theorem exec_keeps_doutValid {i : Instr} {s t : State} (h : exec i s = .next t)
    (hs : statusDvalid s.STATUS = true ↔ s.DOUT.isSome = true) :
    statusDvalid t.STATUS = true ↔ t.DOUT.isSome = true := by
  by_cases hi : i = .digest
  · subst hi; cases h; simp
  · obtain ⟨hdout, hdvalid⟩ := exec_keeps_dout h hi
    rwa [hdout, hdvalid]

theorem exec_keeps_poisonFaulted {i : Instr} {s t : State} (h : exec i s = .next t)
    (hs : s.POISON = true → statusFault s.STATUS = true) : t.POISON = true → statusFault t.STATUS = true := by
  obtain ⟨o, l, bs, -, -, -, rfl⟩ | ⟨o, l, -, -, rfl⟩ | ⟨v, -, rfl⟩ | ⟨-, rfl⟩ | ⟨-, rfl⟩ := exec_cases h
  · simpa using hs
  · simp
  · exact hs
  · simp
  · simp

/-- With POISON 0 after the command, the block is packed: by the ABSORBs of an UPDATE, as it was before SETBITCOUNT, or
empty after RESET and DIGEST. -/
theorem exec_keeps_blockPacked {i : Instr} {s t : State} (h : exec i s = .next t)
    (hs : s.POISON = false → ∃ p, s.msg.Holds p) : t.POISON = false → ∃ p, t.msg.Holds p := by
  obtain ⟨o, l, bs, -, -, -, rfl⟩ | ⟨o, l, -, -, rfl⟩ | ⟨v, -, rfl⟩ | ⟨-, rfl⟩ | ⟨-, rfl⟩ := exec_cases h
  · intro hclean
    rw [absorbRead_POISON] at hclean
    obtain ⟨p, hp⟩ := hs hclean
    rw [absorbRead_msg _ _ _ hclean]
    exact ⟨_, (absorbAll_folds_blocks bs hp).1⟩
  · simp
  · exact hs
  · exact fun _ => ⟨[], fresh_holds_nil⟩
  · exact fun _ => ⟨[], fresh_holds_nil⟩

/-! ### Preservation -/

theorem dispatchCommand_keeps_inv {cw : CommandWord} {s t : State} (h : dispatchCommand cw s = .next t)
    (hs : Inv s) : Inv t := by
  have hstatus := dispatchCommand_keeps_statusLegal h hs.statusLegal
  obtain ⟨i, -, hexec⟩ | ⟨e, -, rfl⟩ := dispatchCommand_cases h
  · obtain ⟨hbuf, -, hinFlight, -⟩ := exec_keeps_hostSide hexec
    exact {
      bufCanonical := hbuf ▸ hs.bufCanonical
      statusLegal := hstatus
      doutValid := exec_keeps_doutValid hexec hs.doutValid
      poisonFaulted := exec_keeps_poisonFaulted hexec hs.poisonFaulted
      blockPacked := exec_keeps_blockPacked hexec hs.blockPacked
      writesInBuf := by rw [hbuf, hinFlight]; exact hs.writesInBuf }
  · exact { hs with statusLegal := hstatus, doutValid := by simpa using hs.doutValid, poisonFaulted := by simp }

theorem landWrites_keeps_inv {s : State} (hs : Inv s) : Inv (landWrites s) :=
  { hs with bufCanonical := writes_keep_wf s.inFlight hs.bufCanonical, writesInBuf := by simp }

theorem powerOnReset_keeps_inv {s : State} (hs : Inv s) : Inv (powerOnReset s) :=
  { hs with
    statusLegal := statusLegal_zero
    doutValid := by rw [powerOnReset_STATUS, powerOnReset_DOUT]; decide
    poisonFaulted := by simp
    blockPacked := fun _ => ⟨[], fresh_holds_nil⟩ }

theorem hostStep_keeps_inv {a : HostAction} {s t : State} (h : hostStep a s = .next t) (hs : Inv s) : Inv t := by
  obtain ⟨cw, u, -, hu, rfl⟩ | ⟨-, rfl⟩ | ⟨-, rfl⟩ | ⟨bytes, -, rfl⟩ | ⟨i, b, -, -, rfl⟩ | ⟨i, b, -, hi, rfl⟩ |
    ⟨-, rfl⟩ := hostStep_cases h
  · exact landWrites_keeps_inv (dispatchCommand_keeps_inv hu hs)
  · exact { hs with }
  · exact { hs with }
  · exact { hs with bufCanonical := ofBytes_wf bytes, writesInBuf := by simp }
  · exact { hs with
      bufCanonical := write_keeps_wf hs.bufCanonical i b
      writesInBuf := by simpa only [write_len] using hs.writesInBuf }
  · exact { hs with writesInBuf := List.forall_mem_append.2 ⟨hs.writesInBuf, by simpa using hi⟩ }
  · exact powerOnReset_keeps_inv hs

/-- Settles O48: the invariant does not speak of the port, and every host action keeps it. -/
theorem stepKeepsTheInvariant : Obligations.StepKeepsTheInvariant := by
  intro s t hs h
  obtain ⟨-, rfl⟩ | ⟨a, rest, -, hstep⟩ := step_cases h
  · exact hs
  · exact hostStep_keeps_inv hstep { hs with }

/-- Settles O47: the empty buffer, STATUS 0 without a DOUT value, and an empty block. -/
theorem resetMeetsTheInvariant : Obligations.ResetMeetsTheInvariant :=
  { bufCanonical := rfl
    statusLegal := statusLegal_zero
    doutValid := by decide
    poisonFaulted := by decide
    blockPacked := fun _ => ⟨[], fresh_holds_nil⟩
    writesInBuf := by simp [State.reset] }

end Sys2Proof.Proofs
end

section
/-!
The reads of an UPDATE: which bytes of buf they depend on, with and without host writes in progress (20_memory.md R41,
R52; 41_intake.md R73).
-/

namespace Sys2Proof.Proofs

open Sys2Proof.Machine Sys2Proof.Laws

/-! ### The bytes an UPDATE absorbs -/

theorem raced_eq_false_iff (s : State) (i : Nat) : raced s i = false ↔ ∀ c ∈ s.inFlight, c.1 ≠ i := by
  simp [raced]

/-- With POISON 0, an in-bounds UPDATE is one ABSORB for each read of the range. -/
theorem update_absorbs_reads {s : State} {off len : Int} (hin : inBounds off len s.buf.len = true)
    (hclean : s.POISON = false) :
    ∃ bs, bs.length = len.toNat ∧ (∀ i, i < len.toNat → bs[i]? = engineRead s (off.toNat + i)) ∧
      exec (.update off len) s = .next { s with
        msg := absorbAll s.msg bs
        draws := if rangeRaced s off.toNat len.toNat then s.draws + 1 else s.draws } := by
  obtain ⟨bs, -, hlength, hreads, hexec⟩ := update_of_inBounds s off len hin
  obtain ⟨m, n, habsorb, heffect⟩ := absorbRead_cases bs (rangeRaced s off.toNat len.toNat) s
  obtain ⟨rfl, rfl⟩ := heffect hclean
  exact ⟨bs, hlength, hreads, by rw [hexec, habsorb]⟩

/-- Settles O21: a read that no write in progress touches is what buf holds. -/
theorem onlyRacedBytesAreFree : Obligations.OnlyRacedBytesAreFree := by
  intro s off len hoff hlen hend hclean
  obtain ⟨bs, hlength, hreads, hexec⟩ := update_absorbs_reads ((inBounds_iff off len _).2 ⟨hoff, hlen, hend⟩) hclean
  refine ⟨bs, _, hlength, fun i hi hfree => ?_, hexec⟩
  rw [hreads i hi, engineRead_of_not_raced ((raced_eq_false_iff s _).2 hfree)]

/-- An UPDATE of one byte, no host write in progress. -/
theorem update_single_byte {s : State} {i : Nat} {b : Byte} (hread : s.buf.read i = some b)
    (hclean : s.POISON = false) (hrace : s.inFlight = []) :
    exec (.update i 1) s = .next { s with msg := absorb s.msg b } := by
  have hi : i < s.buf.len := (read_isSome_iff s.buf i).1 (by simp [hread])
  obtain ⟨bs, hlength, hreads, hexec⟩ :=
    update_absorbs_reads ((inBounds_iff i 1 s.buf.len).2 ⟨by omega, by omega, by omega⟩) hclean
  obtain ⟨x, rfl⟩ := List.length_eq_one_iff.1 hlength
  have hfirst : engineRead s i = some b := by
    rw [engineRead_of_not_raced ((raced_eq_false_iff s i).2 (by simp [hrace])), hread]
  obtain rfl : x = b := by simpa [hfirst] using hreads 0 (by decide)
  simpa [hrace] using hexec

/-! ### The bytes an UPDATE depends on -/

theorem engineRead_withBuf {s : State} {b : Memory} {i : Nat} (h : b.read i = s.buf.read i) :
    engineRead { s with buf := b } i = engineRead s i := by
  simp only [engineRead, h]; rfl

theorem engineReadRange_withBuf {s : State} {b : Memory} : ∀ {n a : Nat},
    (∀ i, a ≤ i → i < a + n → b.read i = s.buf.read i) →
    engineReadRange { s with buf := b } a n = engineReadRange s a n
  | 0, _, _ => rfl
  | n + 1, a, h => by
    have hfirst := engineRead_withBuf (h a (by omega) (by omega))
    have hrest := engineReadRange_withBuf (s := s) (b := b) (n := n) (a := a + 1)
      fun i hlo hhi => h i (by omega) (by omega)
    simp only [engineReadRange, hfirst, hrest]

/-- What is done with the bytes read does not depend on buf. -/
theorem absorbRead_withBuf (bs : List Byte) (r : Bool) (s : State) (b : Memory) :
    absorbRead bs r { s with buf := b } = { absorbRead bs r s with buf := b } := by
  unfold absorbRead
  split <;> rfl

/-- Settles O26: the bounds check sees the length alone, and the reads of a range in bounds see the range alone. -/
theorem onlyTheRangeIsRead : Obligations.OnlyTheRangeIsRead := by
  intro s t b off len hlen hsame hexec
  cases hin : inBounds off len s.buf.len
  case false =>
    rw [update_of_outOfBounds s off len hin] at hexec
    cases hexec
    exact update_of_outOfBounds _ off len (by rw [← hin, ← hlen])
  case true =>
    obtain ⟨bs, hreads, -, -, hs⟩ := update_of_inBounds s off len hin
    obtain ⟨bs', hreads', -, -, hb⟩ := update_of_inBounds { s with buf := b } off len (by rw [← hin, ← hlen])
    obtain ⟨hoff, hlen0, -⟩ := (inBounds_iff off len s.buf.len).1 hin
    have hbytes : some bs' = some bs := by
      rw [← hreads, ← hreads']
      exact engineReadRange_withBuf fun i hlo hhi => hsame i (by omega) (by omega)
    cases hbytes
    rw [hs] at hexec
    cases hexec
    rw [hb, absorbRead_withBuf]
    rfl

end Sys2Proof.Proofs
end

section
/-!
Commands and host accesses taken from the port one after the other: a read of DOUT after a DIGEST, and writes of buf
around an UPDATE (20_memory.md R44, R50, R51, R54; 42_finalize.md R85, R86).
-/

namespace Sys2Proof.Proofs

open Sys2Proof.Machine Sys2Proof.Laws

/-! ### The drained hash as the digest's bytes -/

/-- The top byte of a word after `k` shifts by 8 is its byte `k` (42_finalize.md R85). -/
theorem topByte_shiftLeft (w : Word) {k : Nat} (hk : k ≤ 24) :
    (w <<< k).extractLsb' 24 8 = w.extractLsb' (24 - k) 8 := by
  ext i hi
  have hlt : 24 + i < 32 := by omega
  have hge : ¬ 24 + i < k := by omega
  have hindex : 24 + i - k = 24 - k + i := by omega
  simp only [BitVec.getElem_extractLsb', BitVec.getLsbD_shiftLeft, hlt, hge, hindex, decide_true, decide_false,
    Bool.not_false, Bool.true_and]

/-- The four iterations of the drain that emit word `j`. -/
def drainWord (st : List Byte × Hash) (j : Nat) : List Byte × Hash :=
  [4 * j, 4 * j + 1, 4 * j + 2, 4 * j + 3].foldl drainByte st

theorem drainHash_eq_drainWords (H : Hash) : drainHash H = [0, 1, 2, 3, 4].foldl drainWord ([], H) := by
  simp [drainHash, drainWord, List.range_succ]

/-- A word is emitted most significant byte first, and 0 is left in its place. -/
theorem drainWord_eq (out : List Byte) (H : Hash) {j : Nat} (hj : j < 5) :
    drainWord (out, H) j = (out ++ be32 H[j], H.set j 0#32) := by
  have hfirst : 4 * j / 4 = j := by omega
  have hsecond : (4 * j + 1) / 4 = j := by omega
  have hthird : (4 * j + 2) / 4 = j := by omega
  have hfourth : (4 * j + 3) / 4 = j := by omega
  have hset : H.setIfInBounds j 0#32 = H.set j 0#32 :=
    Vector.ext fun i hi => by simp [Vector.getElem_setIfInBounds, Vector.getElem_set]
  simp [drainWord, drainByte, be32, hj, hfirst, hsecond, hthird, hfourth, topByte_shiftLeft, hset]

theorem drainHash_eq (H : Hash) : drainHash H = (digestBytes H, Vector.replicate 5 0#32) := by
  have hzero : ((((H.set 0 0#32).set 1 0#32).set 2 0#32).set 3 0#32).set 4 0#32 = Vector.replicate 5 0#32 := by
    refine Vector.ext fun i hi => ?_
    have hcases : i = 0 ∨ i = 1 ∨ i = 2 ∨ i = 3 ∨ i = 4 := by omega
    obtain rfl | rfl | rfl | rfl | rfl := hcases <;> simp
  simp [drainHash_eq_drainWords, drainWord_eq, digestBytes, hzero]

theorem digestBytes_length (H : Hash) : (digestBytes H).length = 20 := rfl

theorem digestOfBytes_toList {out : List Byte} (h : out.length = 20) : (digestOfBytes out).toList = out := by
  refine List.ext_getElem (by simp [h]) fun i hi hout => ?_
  simp [digestOfBytes, hout]

theorem digestOutput_of_clean {s : State} (h : s.POISON = false) :
    (digestOutput s).toList = digestBytes (padMessage s.msg).H := by
  simp [digestOutput, h, drainHash_eq, digestOfBytes_toList (digestBytes_length _)]

/-! ### Steps of a run -/

theorem run_succ_of_step {s t : State} (h : step s = .next t) (k : Nat) :
    Host.Core.run Sys2Proof.core (k + 1) s = Host.Core.run Sys2Proof.core k t := by
  have hcore : Sys2Proof.core.step s = .next t := h
  simp only [Host.Core.run, hcore]

theorem decode_encode {i : Instr} (h : i.wellFormed = true) : decode (encode i) = .legal i := by
  cases i with
  | reset => decide
  | digest => decide
  | setbitcount v => simp [decode, encode]
  | update o l =>
    simp only [Instr.wellFormed, Bool.and_eq_true] at h
    simp [decode, encode, offsetOperand, lengthOperand, offsetField_updateOperand, lengthField_updateOperand,
      toInt_ofInt_of_fits h.1, toInt_ofInt_of_fits h.2]

/-- The step that takes a command's word from the port. -/
theorem step_of_command {s t : State} {i : Instr} {rest : List HostAction}
    (hport : s.port = .command (encode i) :: rest) (hi : i.wellFormed = true)
    (hexec : exec i { s with port := rest } = .next t) : step s = .next (landWrites t) := by
  rw [step_of_port_cons hport, hostStep, dispatchCommand, decode_encode hi]
  simp [hexec]

/-- The step that takes a completed host write from the port. -/
theorem step_of_writeBuf {s : State} {i : Nat} {b : Byte} {rest : List HostAction}
    (hport : s.port = .writeBuf i b :: rest) (hi : i < s.buf.len) :
    step s = .next { s with port := rest, buf := s.buf.write i b } := by
  simp [step_of_port_cons hport, hostStep, hi]

/-- The step that takes a host read of DOUT from the port. -/
theorem step_of_readDout {s : State} {rest : List HostAction} (hport : s.port = .readDout :: rest) :
    step s = .next { s with port := rest, received := .dout (hostReadDout s) :: s.received } := by
  rw [step_of_port_cons hport, hostStep_readDout]
  rfl

/-- The step of an UPDATE of one byte, no host write in progress. -/
theorem step_of_update_single_byte {s : State} {i : Nat} {b : Byte} {rest : List HostAction}
    (hport : s.port = .command (encode (.update i 1)) :: rest) (hi : i ≤ 2147483647)
    (hread : s.buf.read i = some b) (hclean : s.POISON = false) (hrace : s.inFlight = []) :
    step s = .next { s with port := rest, msg := absorb s.msg b } := by
  have hwell : (Instr.update i 1).wellFormed = true := by
    simp only [Instr.wellFormed, Bool.and_eq_true, fitsSigned32_iff]; omega
  have hexec := update_single_byte (s := { s with port := rest }) hread hclean hrace
  exact (step_of_command hport hwell hexec).trans (congrArg _ (landWrites_of_inFlight_nil hrace))

/-! ### The two sequences -/

@[simp] theorem hostReadDout_landWrites (s : State) : hostReadDout (landWrites s) = hostReadDout s := rfl

/-- What a read after a DIGEST finds (42_finalize.md R86). -/
theorem hostReadDout_after_digest {s t : State} (h : exec .digest s = .next t) :
    hostReadDout t = some (digestOutput s) := by
  cases h
  simp [hostReadDout]

/-- Settles O51: the DIGEST's step leaves its output in DOUT, and the read delivers what DOUT holds. -/
theorem readAfterDigestReturnsItsDigest : Obligations.ReadAfterDigestReturnsItsDigest := by
  intro s rest hclean hport
  obtain ⟨t, hexec⟩ := exec_completes .digest { s with port := .readDout :: rest }
  obtain ⟨-, hportRead, -, hreceived⟩ := exec_keeps_hostSide hexec
  have hdigest := step_of_command hport rfl hexec
  have hread := step_of_readDout (s := landWrites t) hportRead
  have hdout : hostReadDout t = some (digestOutput s) := by rw [hostReadDout_after_digest hexec]; rfl
  exact ⟨_, _, (run_succ_of_step hdigest 1).trans (run_succ_of_step hread 0),
    by simp [hdout, hreceived], rfl, digestOutput_of_clean hclean⟩

/-- Settles O52: the UPDATE reads the byte just written, and the write after it touches nothing but buf. -/
theorem completedHostWriteIsAbsorbed : Obligations.CompletedHostWriteIsAbsorbed := by
  intro s i b c hcanonical hi hfits hclean hrace hport
  have hinside : i < (s.buf.write i b).len := by rwa [write_len]
  have hwrite := step_of_writeBuf hport hi
  have hupdate := step_of_update_single_byte (s := { s with
    port := [.command (encode (.update i 1)), .writeBuf i c]
    buf := s.buf.write i b }) rfl hfits (read_write_same hcanonical hi b) hclean hrace
  have hrewrite := step_of_writeBuf (s := { s with
    port := [.writeBuf i c]
    buf := s.buf.write i b
    msg := absorb s.msg b }) rfl hinside
  refine ⟨_, (run_succ_of_step hwrite 2).trans ((run_succ_of_step hupdate 1).trans (run_succ_of_step hrewrite 0)),
    rfl, rfl, rfl, hclean, read_write_same (write_keeps_wf hcanonical i b) hinside c, fun j hj => ?_⟩
  exact (read_write_other _ hj c).trans (read_write_other _ hj b)

end Sys2Proof.Proofs
end

section
/-!
The decoder and the encoder are inverse to each other, the legal words are the opcode table's, and what dispatch makes
of an illegal word (30_encoding.md R57 to R63, R69; 60_exceptions.md R118).
-/

namespace Sys2Proof.Proofs

open Sys2Proof.Machine Sys2Proof.Laws

/-! ### A word is laid out from its fields -/

theorem commandWord_fields (cw : CommandWord) : commandWord (opField cw) (opndField cw) = cw := by
  simp only [commandWord, opField, opndField]
  ext i hi
  by_cases hlow : i < 64
  · simp [hlow, hi, ← BitVec.getLsbD_eq_getElem]
  · have hop : i - 64 < 4 := by omega
    have hword : i - 64 < 68 := by omega
    have hindex : 64 + (i - 64) = i := by omega
    simp [hlow, hop, hword, hindex, hi, ← BitVec.getLsbD_eq_getElem]

theorem updateOperand_operands (cw : CommandWord) :
    updateOperand (offsetOperand cw) (lengthOperand cw) = opndField cw := by
  simp only [updateOperand, offsetOperand, lengthOperand, opndField, BitVec.ofInt_toInt]
  ext i hi
  by_cases hlow : i < 32
  · simp [hlow]
  · have hhigh : i - 32 < 32 := by omega
    have hindex : 32 + (i - 32) = i := by omega
    simp [hlow, hhigh, hindex]

/-- A signed field holds a number in its range (R58). -/
theorem fitsSigned32_toInt (x : BitVec 32) : fitsSigned32 x.toInt = true := by
  have hlow := x.le_toInt
  have hhigh := x.toInt_lt
  rw [fitsSigned32_iff]
  omega

/-! ### What the decoder answers for each op -/

theorem decode_of_op_update {cw : CommandWord} (h : opField cw = 2#4) :
    decode cw = .legal (.update (offsetOperand cw) (lengthOperand cw)) := by
  simp [decode, h]

theorem decode_of_op_setbitcount {cw : CommandWord} (h : opField cw = 4#4) :
    decode cw = .legal (.setbitcount (valueOperand cw)) := by
  simp [decode, h]

/-- Everything the decoder can accept. -/
theorem decode_cases {cw : CommandWord} {i : Instr} (h : decode cw = .legal i) :
    (opField cw = 1#4 ∧ opndField cw = 0#64 ∧ i = .reset) ∨
    (opField cw = 2#4 ∧ i = .update (offsetOperand cw) (lengthOperand cw)) ∨
    (opField cw = 3#4 ∧ opndField cw = 0#64 ∧ i = .digest) ∨
    (opField cw = 4#4 ∧ i = .setbitcount (valueOperand cw)) := by
  unfold decode at h
  split at h
  next hop =>
    split at h
    next hopnd => cases h; exact .inl ⟨hop, hopnd, rfl⟩
    next => cases h
  next =>
  split at h
  next hop => cases h; exact .inr (.inl ⟨hop, rfl⟩)
  next =>
  split at h
  next hop =>
    split at h
    next hopnd => cases h; exact .inr (.inr (.inl ⟨hop, hopnd, rfl⟩))
    next => cases h
  next =>
  split at h
  next hop => cases h; exact .inr (.inr (.inr ⟨hop, rfl⟩))
  next => cases h

/-! ### Decoding and encoding are inverse -/

/-- Settles O1: the round trip of each constructor. -/
theorem decodeOfEncodeIsTheCommand : Obligations.DecodeOfEncodeIsTheCommand :=
  fun _ => decode_encode

theorem wellFormed_of_decode {cw : CommandWord} {i : Instr} (h : decode cw = .legal i) : i.wellFormed = true := by
  obtain ⟨-, -, rfl⟩ | ⟨-, rfl⟩ | ⟨-, -, rfl⟩ | ⟨-, rfl⟩ := decode_cases h
  case inr.inl =>
    simp only [Instr.wellFormed, Bool.and_eq_true]
    exact ⟨fitsSigned32_toInt _, fitsSigned32_toInt _⟩
  all_goals rfl

theorem encode_of_decode {cw : CommandWord} {i : Instr} (h : decode cw = .legal i) : encode i = cw := by
  have hword := commandWord_fields cw
  obtain ⟨hop, hopnd, rfl⟩ | ⟨hop, rfl⟩ | ⟨hop, hopnd, rfl⟩ | ⟨hop, rfl⟩ := decode_cases h
  · rwa [hop, hopnd] at hword
  · rwa [hop, ← updateOperand_operands] at hword
  · rwa [hop, hopnd] at hword
  · rwa [hop] at hword

/-- Settles O2: a word is laid out from the fields its command was read from. -/
theorem encodeOfDecodeIsTheWord : Obligations.EncodeOfDecodeIsTheWord :=
  fun _ _ h => ⟨wellFormed_of_decode h, encode_of_decode h⟩

/-! ### The rows of the opcode table -/

theorem opcodeRow_mem (i : Instr) : opcodeRow i ∈ opcodeTable := by
  cases i <;> simp [opcodeRow, opcodeTable]

theorem opcodeRow_covers_encode (i : Instr) : (opcodeRow i).covers (encode i) = true := by
  cases i with
  | reset => exact OpcodeRow.reset
  | update offset length => exact OpcodeRow.update offset length
  | digest => exact OpcodeRow.digest
  | setbitcount value => exact OpcodeRow.setbitcount value

/-- A mask that fixes the op field alone gives the op. -/
theorem opField_of_op_mask {cw pattern : CommandWord} (h : cw &&& 0xF0000000000000000#68 = pattern) :
    opField cw = opField pattern := by
  have hones : (0xF0000000000000000#68).extractLsb' 64 4 = BitVec.allOnes 4 := by decide
  rw [← h, opField, opField, BitVec.extractLsb'_and, hones, BitVec.and_allOnes]

/-- A mask that fixes every bit gives the word. -/
theorem eq_of_full_mask {cw pattern : CommandWord} (h : cw &&& 0xFFFFFFFFFFFFFFFFF#68 = pattern) : cw = pattern := by
  have hones : 0xFFFFFFFFFFFFFFFFF#68 = BitVec.allOnes 68 := by decide
  rwa [hones, BitVec.and_allOnes] at h

theorem legal_of_covers {r : OpcodeRow} (hr : r ∈ opcodeTable) {cw : CommandWord} (h : r.covers cw = true) :
    ∃ i, decode cw = .legal i := by
  simp only [opcodeTable, List.mem_cons, List.not_mem_nil, or_false] at hr
  simp only [OpcodeRow.covers, beq_iff_eq] at h
  obtain rfl | rfl | rfl | rfl := hr
  · exact ⟨.reset, by rw [eq_of_full_mask h]; decide⟩
  · exact ⟨_, decode_of_op_update (opField_of_op_mask h)⟩
  · exact ⟨.digest, by rw [eq_of_full_mask h]; decide⟩
  · exact ⟨_, decode_of_op_setbitcount (opField_of_op_mask h)⟩

/-- Settles O3: a legal word is the encoding of its command, which lies in the command's row. -/
theorem legalWordsAreTheOpcodeRows : Obligations.LegalWordsAreTheOpcodeRows := by
  intro cw
  have hrow : ∀ i, decode cw = .legal i → opcodeRow i ∈ opcodeTable ∧ (opcodeRow i).covers cw = true :=
    fun i h => ⟨opcodeRow_mem i, encode_of_decode h ▸ opcodeRow_covers_encode i⟩
  exact ⟨⟨fun ⟨i, h⟩ => ⟨_, hrow i h⟩, fun ⟨_, hr, hcovers⟩ => legal_of_covers hr hcovers⟩, hrow⟩

/-! ### Operands -/

/-- A 32-bit field at bit `k` read as two's complement, by arithmetic on the word's number. -/
theorem toInt_signedField (cw : CommandWord) (k : Nat) :
    (cw.extractLsb' k 32).toInt =
      if 2147483648 ≤ cw.toNat / 2 ^ k % 4294967296 then ((cw.toNat / 2 ^ k % 4294967296 : Nat) : Int) - 4294967296
      else ((cw.toNat / 2 ^ k % 4294967296 : Nat) : Int) := by
  have hfield : (cw.extractLsb' k 32).toNat = cw.toNat / 2 ^ k % 4294967296 := by
    rw [BitVec.extractLsb'_toNat, Nat.shiftRight_eq_div_pow]
  rw [BitVec.toInt_eq_toNat_cond, hfield]
  split <;> split <;> omega

/-- Settles O4: the decoder reads the fields, and no buffer holds a range with a negative end. -/
theorem operandsAreTheFields : Obligations.OperandsAreTheFields := by
  refine fun cw => ⟨fun hop => ⟨_, _, decode_of_op_update hop, toInt_signedField cw 32, ?_, ?_⟩,
    fun hop => ⟨_, decode_of_op_setbitcount hop, BitVec.extractLsb'_toNat ..⟩⟩
  · have hlength := toInt_signedField cw 0
    rwa [Nat.pow_zero, Nat.div_one] at hlength
  · intro hneg bufLen
    rw [Bool.eq_false_iff, ne_eq, inBounds_iff]
    omega

/-- Settles O5: the words by computation; the length -1 fails the bounds check of any buffer. -/
theorem workedEncodings : Obligations.WorkedEncodings :=
  ⟨by decide, by decide, by decide, by decide, by decide, by decide, by decide, by decide, by decide, by decide,
    by decide, by decide, fun s => update_of_outOfBounds s 5 (-1) rfl⟩

/-! ### Illegal words -/

theorem dispatchCommand_of_illegal {cw : CommandWord} {e : DecodeError} (h : decode cw = .illegal e) (s : State) :
    dispatchCommand cw s = .next (illegalCommandEntry s) := by
  simp [dispatchCommand, h]

/-- Settles O6: the decoder accepts none of these words, and the fault's entry writes STATUS alone. -/
theorem illegalWordRecordsIllegalCommand : Obligations.IllegalWordRecordsIllegalCommand := by
  intro s cw hillegal
  cases hdecode : decode cw with
  | legal i =>
    obtain ⟨hop, hopnd, -⟩ | ⟨hop, -⟩ | ⟨hop, hopnd, -⟩ | ⟨hop, -⟩ := decode_cases hdecode <;>
      simp [hop] at hillegal
    all_goals exact absurd hopnd hillegal
  | illegal e =>
    exact ⟨_, dispatchCommand_of_illegal hdecode s, statusRecordFault_fields s.STATUS .illegalCommand⟩

end Sys2Proof.Proofs
end

section
/-!
An UPDATE of no byte, and what the assembler accepts and refuses (30_encoding.md R64, R67, R68; 41_intake.md R73).
-/

namespace Sys2Proof.Proofs

open Sys2Proof.Machine Sys2Proof.Laws

/-! ### UPDATE of no byte -/

theorem rangeRaced_zero (s : State) (a : Nat) : rangeRaced s a 0 = false := by
  simp only [rangeRaced, List.any_eq_false, Bool.and_eq_true, decide_eq_true_eq]
  omega

theorem absorbRead_nil (s : State) : absorbRead [] false s = s := by simp [absorbRead]

/-- Settles O24: the range is in bounds, no byte is read and none is raced. -/
theorem updateOfNoByteChangesNothing : Obligations.UpdateOfNoByteChangesNothing := by
  intro s off hoff hlen
  obtain ⟨bs, -, hbs, -, hexec⟩ := update_of_inBounds s off 0 ((inBounds_iff off 0 s.buf.len).2 (by omega))
  obtain rfl : bs = [] := List.length_eq_zero_iff.1 hbs
  rw [hexec, Int.toNat_zero, rangeRaced_zero, absorbRead_nil]

/-! ### The lines the assembler accepts, by their number of tokens -/

theorem asmLine_one_eq_ok {m : List Char} {is : List Instr} (h : asmLine [m] = .ok is) :
    (m.map lowerChar = ['r', 'e', 's', 'e', 't'] ∧ is = [.reset]) ∨
    (m.map lowerChar = ['d', 'i', 'g', 'e', 's', 't'] ∧ is = [.digest]) ∨
    (m.map lowerChar = ['n', 'o', 'p'] ∧ is = [.update 0 0]) := by
  simp only [asmLine] at h
  split at h
  next hreset => cases h; exact .inl ⟨hreset, rfl⟩
  next =>
  split at h
  next hdigest => cases h; exact .inr (.inl ⟨hdigest, rfl⟩)
  next =>
  split at h
  next hnop => cases h; exact .inr (.inr ⟨hnop, rfl⟩)
  next => cases h

theorem asmLine_two_eq_ok {m v : List Char} {is : List Instr} (h : asmLine [m, v] = .ok is) :
    ∃ n, m.map lowerChar = ['s', 'e', 't', 'b', 'i', 't', 'c', 'o', 'u', 'n', 't'] ∧
      unsignedNumber v = some n ∧ n < 2 ^ 64 ∧ is = [.setbitcount (BitVec.ofNat 64 n)] := by
  simp only [asmLine] at h
  split at h
  next hname =>
    obtain ⟨i, hi, rfl⟩ := except_map_eq_ok h
    obtain ⟨n, hn, hrange, rfl⟩ := asmSetbitcount_eq_ok hi
    exact ⟨n, hname, hn, hrange, rfl⟩
  next => cases h

theorem asmLine_four_eq_ok {m off comma len : List Char} {is : List Instr}
    (h : asmLine [m, off, comma, len] = .ok is) :
    ∃ o l, comma = [','] ∧ signedNumber off = some o ∧ signedNumber len = some l ∧
      fitsSigned32 o = true ∧ fitsSigned32 l = true ∧
      ((m.map lowerChar = ['u', 'p', 'd', 'a', 't', 'e'] ∧ is = [.update o l]) ∨
       (m.map lowerChar = ['h', 'a', 's', 'h'] ∧ is = [.reset, .update o l, .digest])) := by
  simp only [asmLine] at h
  split at h
  next hcomma =>
    split at h
    next hupdate =>
      obtain ⟨i, hi, rfl⟩ := except_map_eq_ok h
      obtain ⟨o, l, ho, hl, hfo, hfl, rfl⟩ := asmUpdate_eq_ok hi
      exact ⟨o, l, hcomma, ho, hl, hfo, hfl, .inl ⟨hupdate, rfl⟩⟩
    next =>
    split at h
    next hhash =>
      obtain ⟨i, hi, rfl⟩ := except_map_eq_ok h
      obtain ⟨o, l, ho, hl, hfo, hfl, rfl⟩ := asmUpdate_eq_ok hi
      exact ⟨o, l, hcomma, ho, hl, hfo, hfl, .inr ⟨hhash, rfl⟩⟩
    next => cases h
  next => cases h

theorem wellFormed_of_asmLine {tokens : List (List Char)} {is : List Instr} (h : asmLine tokens = .ok is) :
    ∀ i ∈ is, i.wellFormed = true := by
  match tokens, h with
  | [], h => cases h; simp
  | [m], h => obtain ⟨-, rfl⟩ | ⟨-, rfl⟩ | ⟨-, rfl⟩ := asmLine_one_eq_ok h <;> decide
  | [m, v], h =>
    obtain ⟨n, -, -, -, rfl⟩ := asmLine_two_eq_ok h
    simp [Instr.wellFormed]
  | [m, off, comma, len], h =>
    obtain ⟨o, l, -, -, -, hfo, hfl, ⟨-, rfl⟩ | ⟨-, rfl⟩⟩ := asmLine_four_eq_ok h <;>
      simp [Instr.wellFormed, hfo, hfl]

theorem map_decode_encode {is : List Instr} (h : ∀ i ∈ is, i.wellFormed = true) :
    (is.map encode).map decode = is.map Decoded.legal := by
  rw [List.map_map]
  exact List.map_congr_left fun i hi => decode_encode (h i hi)

/-- Settles O7: each form of line has its own number of tokens, and its words decode by the round trip. -/
theorem assemblerEmitsLegalWords : Obligations.AssemblerEmitsLegalWords := by
  intro line ws hassemble
  obtain ⟨is, hline, rfl⟩ := except_map_eq_ok hassemble
  have hwell := wellFormed_of_asmLine hline
  refine ⟨is, hline, hwell, map_decode_encode hwell, ?_⟩
  match asmTokens (dropComment line) [], hline with
  | [], hline => cases hline; exact .inl ⟨rfl, rfl⟩
  | [m], hline => exact .inr (.inl ⟨m, rfl, asmLine_one_eq_ok hline⟩)
  | [m, v], hline =>
    obtain ⟨n, hname, hn, hrange, his⟩ := asmLine_two_eq_ok hline
    exact .inr (.inr (.inl ⟨m, v, n, rfl, hname, hn, hrange, his⟩))
  | [m, off, comma, len], hline =>
    obtain ⟨o, l, rfl, ho, hl, hfo, hfl, hcommand⟩ := asmLine_four_eq_ok hline
    obtain ⟨ho1, ho2⟩ := (fitsSigned32_iff o).1 hfo
    obtain ⟨hl1, hl2⟩ := (fitsSigned32_iff l).1 hfl
    exact .inr (.inr (.inr ⟨m, off, len, o, l, rfl, ho, hl, ho1, ho2, hl1, hl2, hcommand⟩))

/-! ### The ranges and the pseudo-commands -/

theorem asmUpdate_of_numbers {off len : List Char} {o l : Int} (ho : signedNumber off = some o)
    (hl : signedNumber len = some l) :
    asmUpdate off len =
      if -2147483648 ≤ o ∧ o ≤ 2147483647 ∧ -2147483648 ≤ l ∧ l ≤ 2147483647 then .ok (.update o l)
      else .error .outOfRange := by
  simp [asmUpdate, ho, hl, fitsSigned32_iff, and_assoc]

theorem asmSetbitcount_of_number {v : List Char} {n : Nat} (h : unsignedNumber v = some n) :
    asmSetbitcount v =
      if n < 18446744073709551616 then .ok (.setbitcount (BitVec.ofNat 64 n)) else .error .outOfRange := by
  simp [asmSetbitcount, h]

theorem asmLine_update (off len : List Char) :
    asmLine [['u', 'p', 'd', 'a', 't', 'e'], off, [','], len] = (asmUpdate off len).map fun i => [i] := rfl

theorem asmLine_hash (off len : List Char) :
    asmLine [['h', 'a', 's', 'h'], off, [','], len] = (asmUpdate off len).map fun i => [.reset, i, .digest] := rfl

theorem asmLine_setbitcount (v : List Char) :
    asmLine [['s', 'e', 't', 'b', 'i', 't', 'c', 'o', 'u', 'n', 't'], v] =
      (asmSetbitcount v).map fun i => [i] := rfl

/-- Settles O8: the range checks of the two operand forms decide, and nop is an UPDATE of no byte. -/
theorem assemblerRangesAndPseudoCommands : Obligations.AssemblerRangesAndPseudoCommands := by
  refine ⟨fun off len o l ho hl => ⟨?_, ?_⟩, fun v n hn => ?_, rfl, fun s => ?_⟩
  · rw [asmLine_update, asmUpdate_of_numbers ho hl]
    split <;> rfl
  · rw [asmLine_hash, asmUpdate_of_numbers ho hl]
    split <;> rfl
  · rw [asmLine_setbitcount, asmSetbitcount_of_number hn]
    split <;> rfl
  · exact updateOfNoByteChangesNothing s 0 (Int.le_refl 0) (Int.natCast_nonneg _)

end Sys2Proof.Proofs
end

section
/-!
Intake: one ABSORB and its counts, RESET, UPDATEs of clean states as the bytes of their ranges, and the step that takes
a command word (41_intake.md R70 to R79; 70_reset_and_hazards.md R144).
-/

namespace Sys2Proof.Proofs

open Sys2Proof.Machine Sys2Proof.Laws Sys2Proof.Safety

/-! ### ABSORB and its counts -/

theorem scheduleAt_placeByte (m : Message) (b : Byte) {t : Nat} (ht : t < 80) :
    scheduleAt (placeByte m b).W t =
      if t = m.lenW.val / 4 then (scheduleAt m.W t <<< 8) ||| b.setWidth 32 else scheduleAt m.W t := by
  rw [placeByte, scheduleAt_put _ _ (by omega) ht]
  split
  · subst t; rfl
  · rfl

/-- Settles O15: the schedule with the byte placed is the one ABSORB keeps, or compresses at the 64th byte. -/
theorem absorbPlacesCountsAndCompresses : Obligations.AbsorbPlacesCountsAndCompresses := by
  intro m b
  refine ⟨by omega, absorb_bitCount m b, (placeByte m b).W, fun t ht => scheduleAt_placeByte m b ht,
    fun hbelow => ?_, fun hlast => ?_⟩
  · rw [absorb_of_lt m b (by omega)]
    exact ⟨rfl, rfl, rfl⟩
  · rw [absorb_of_last m b hlast]
    exact ⟨rfl, rfl, fun t _ => scheduleAt_zero t⟩

theorem absorbAll_lenW (bs : List Byte) (m : Message) :
    (absorbAll m bs).lenW.val = (m.lenW.val + bs.length) % 64 := by
  induction bs generalizing m with
  | nil => exact (Nat.mod_eq_of_lt m.lenW.isLt).symm
  | cons b bs ih => rw [absorbAll_cons, ih, absorb_lenW, List.length_cons]; omega

/-- COMPRESS runs once for every 64 bytes of the block and the sequence together. -/
theorem compressCount_eq (bs : List Byte) (m : Message) :
    compressCount m bs = (m.lenW.val + bs.length) / 64 := by
  induction bs generalizing m with
  | nil => exact (Nat.div_eq_of_lt m.lenW.isLt).symm
  | cons b bs ih =>
    rw [compressCount, ih, absorb_lenW, List.length_cons]
    split <;> omega

theorem padding_length (n0 : Nat) (c : DWord) : (padding n0 c).length = 9 + (119 - n0) % 64 := by
  simp [padding, zeroCount, be64]; omega

/-- Settles O17: the counts of any sequence, and the padding's from its length. -/
theorem compressionCounts : Obligations.CompressionCounts := by
  refine ⟨fun m bs => ⟨compressCount_eq bs m, absorbAll_lenW bs m⟩, fun m c => ⟨padding_length _ c, ?_⟩⟩
  rw [compressCount_eq, padding_length]
  split <;> omega

/-! ### RESET -/

/-- Settles O18: RESET is `resetMessage`, whose message state is the fresh one. -/
theorem resetReinitialisesTheMessageState : Obligations.ResetReinitialisesTheMessageState :=
  fun _ => rfl

/-! ### UPDATE of a clean state -/

theorem slice_length {m : Memory} {a n : Nat} (h : a + n ≤ m.len) : (m.slice a n).length = n := by
  simp [Memory.slice]; omega

theorem getElem?_slice (m : Memory) (a : Nat) {n i : Nat} (h : i < n) : (m.slice a n)[i]? = m.read (a + i) := by
  rw [Memory.slice, List.getElem?_take_of_lt h, List.getElem?_drop, getElem?_bytes]

/-- In bounds, with POISON 0 and no host write in progress, UPDATE is one ABSORB for each byte of the range. -/
theorem update_absorbs_slice {s : State} {off len : Int} (hin : inBounds off len s.buf.len = true)
    (hclean : s.POISON = false) (hrace : s.inFlight = []) :
    exec (.update off len) s = .next { s with msg := absorbAll s.msg (s.buf.slice off.toNat len.toNat) } := by
  obtain ⟨bs, hlength, hreads, hexec⟩ := update_absorbs_reads hin hclean
  have hslice : bs = s.buf.slice off.toNat len.toNat := by
    refine List.ext_getElem? fun i => ?_
    by_cases hi : i < len.toNat
    · rw [hreads i hi, engineRead_of_not_raced ((raced_eq_false_iff s _).2 (by simp [hrace])), getElem?_slice _ _ hi]
    · rw [List.getElem?_eq_none (by omega),
        List.getElem?_eq_none (by rw [slice_length (inBounds_toNat hin)]; omega)]
  simpa [hrace, hslice] using hexec

/-- Settles O20: the bytes absorbed are the slice of buf that the range names. -/
theorem updateAbsorbsTheRange : Obligations.UpdateAbsorbsTheRange := by
  intro s off len hoff hlen hend hclean hrace
  have hin := (inBounds_iff off len s.buf.len).2 ⟨hoff, hlen, hend⟩
  exact ⟨_, slice_length (inBounds_toNat hin), fun i hi => (getElem?_slice _ _ hi).symm,
    update_absorbs_slice hin hclean hrace⟩

/-- Settles O22: the frame of an in-bounds UPDATE; with no byte it is the UPDATE that changes nothing. -/
theorem updateWhilePoisonedStaysPoisoned : Obligations.UpdateWhilePoisonedStaysPoisoned := by
  intro s off len hoff hlen hend _
  have hin := (inBounds_iff off len s.buf.len).2 ⟨hoff, hlen, hend⟩
  obtain ⟨bs, -, -, -, hexec⟩ := update_of_inBounds s off len hin
  obtain ⟨m, n, hread, -⟩ := absorbRead_cases bs (rangeRaced s off.toNat len.toNat) s
  rw [hread] at hexec
  refine ⟨m, n, hexec, ?_⟩
  rintro rfl
  have hsame : Host.Outcome.next { s with msg := m, draws := n } = .next s :=
    hexec.symm.trans (updateOfNoByteChangesNothing s off hoff (by omega))
  injection hsame with hstate
  exact ⟨congrArg State.msg hstate, congrArg State.draws hstate⟩

/-! ### Commands one after the other -/

@[simp] theorem execAll_nil (s : State) : execAll [] s = .next s := rfl

theorem execAll_cons {i : Instr} {s t : State} (h : exec i s = .next t) (is : List Instr) :
    execAll (i :: is) s = execAll is t := by simp [execAll, h]

/-- UPDATEs of clean states absorb the bytes of their ranges one range after the other. -/
theorem execAll_updates {pieces : List (Nat × Nat)} {s : State} (hclean : s.POISON = false) (hrace : s.inFlight = [])
    (hin : ∀ p ∈ pieces, p.1 + p.2 ≤ s.buf.len) :
    execAll (pieces.map fun p => .update p.1 p.2) s =
      .next { s with msg := absorbAll s.msg (pieces.flatMap fun p => s.buf.slice p.1 p.2) } := by
  induction pieces generalizing s with
  | nil => rfl
  | cons p pieces ih =>
    obtain ⟨hp, hrest⟩ := List.forall_mem_cons.1 hin
    have hfirst := update_absorbs_slice ((inBounds_iff p.1 p.2 s.buf.len).2 (by omega)) hclean hrace
    rw [List.map_cons, execAll_cons hfirst, List.flatMap_cons, absorbAll_append]
    exact ih (s := { s with msg := absorbAll s.msg (s.buf.slice p.1 p.2) }) hclean hrace hrest

/-- Settles O25: both sides absorb the same bytes. -/
theorem chunkingInvariance : Obligations.ChunkingInvariance := by
  intro s pieces off len hclean hrace hend hpieces hbytes
  rw [execAll_updates hclean hrace hpieces, hbytes,
    update_absorbs_slice ((inBounds_iff off len s.buf.len).2 (by omega)) hclean hrace]
  rfl

/-- DIGEST with POISON 0: the digest of the padded block goes to DOUT, and the message state is fresh. -/
theorem digest_of_clean {s : State} (h : s.POISON = false) :
    exec .digest s = .next { s with
      msg := Message.fresh
      DOUT := some (digestOfBytes (digestBytes (padMessage s.msg).H))
      STATUS := statusWithDvalid s.STATUS } := by
  simp [exec, execDigest, resetMessage, digestOutput, drainHash_eq, h]

/-- RESET, an UPDATE in bounds and DIGEST: DOUT is the digest of the range, whatever the engine held before. -/
theorem execAll_hash {s : State} {off len : Int} (hin : inBounds off len s.buf.len = true) (hrace : s.inFlight = []) :
    execAll [.reset, .update off len, .digest] s = .next { s with
      msg := Message.fresh
      POISON := false
      DOUT := some (digestOfBytes (digestBytes
        (padMessage (absorbAll Message.fresh (s.buf.slice off.toNat len.toNat))).H))
      STATUS := statusWithDvalid s.STATUS } := by
  have hreset : exec .reset s = .next (resetMessage s) := rfl
  have hupdate := update_absorbs_slice (s := resetMessage s) hin rfl hrace
  rw [execAll_cons hreset, execAll_cons hupdate, execAll_cons (digest_of_clean rfl), execAll_nil]
  rfl

/-- Settles O19: the first UPDATE leaves buf and the writes in progress, and the rest of the run sees nothing else. -/
theorem resetDiscardsWhatWasAbsorbed : Obligations.ResetDiscardsWhatWasAbsorbed := by
  intro s off len off' len' hoff hlen hend hrace
  have hin := (inBounds_iff off' len' s.buf.len).2 ⟨hoff, hlen, hend⟩
  obtain ⟨r, hfirst⟩ := exec_completes (.update off len) s
  obtain ⟨hbuf, -, hinFlight, -⟩ := exec_keeps_hostSide hfirst
  refine ⟨_, _, (execAll_cons hfirst _).trans (execAll_hash (hbuf ▸ hin) (hinFlight.trans hrace)),
    execAll_hash hin hrace, ?_, rfl, rfl⟩
  rw [hbuf]

/-! ### The step that takes a command word -/

theorem dispatchCommand_of_legal {cw : CommandWord} {i : Instr} (h : decode cw = .legal i) (s : State) :
    dispatchCommand cw s = exec i s := by
  simp [dispatchCommand, h]

/-- With no host write in progress nothing lands when a command completes. -/
theorem completeCommand_dispatch {s : State} (h : s.inFlight = []) (cw : CommandWord) :
    completeCommand (dispatchCommand cw s) = dispatchCommand cw s := by
  obtain ⟨t, ht⟩ := dispatchCommand_completes cw s
  have hnone : t.inFlight = [] := by
    obtain ⟨i, -, hexec⟩ | ⟨e, -, rfl⟩ := dispatchCommand_cases ht
    · obtain ⟨-, -, hinFlight, -⟩ := exec_keeps_hostSide hexec
      exact hinFlight.trans h
    · exact h
  rw [ht, completeCommand_next, landWrites_of_inFlight_nil hnone]

/-- Settles O39: the step dispatches the word with the port moved on, and the command completes. -/
theorem stepRunsTheDecodedCommand : Obligations.StepRunsTheDecodedCommand := by
  intro s cw rest hport
  have hstep : step s = completeCommand (dispatchCommand cw { s with port := rest }) := step_of_port_cons hport
  have halone (hrace : s.inFlight = []) : step s = dispatchCommand cw { s with port := rest } :=
    hstep.trans (completeCommand_dispatch (s := { s with port := rest }) hrace cw)
  refine ⟨fun i hi => ?_, fun e he => ?_⟩
  · rw [dispatchCommand_of_legal hi] at hstep halone
    exact ⟨hstep, halone⟩
  · have hdispatch := dispatchCommand_of_illegal he { s with port := rest }
    rw [hdispatch] at hstep halone
    exact ⟨hdispatch, hstep, halone⟩

end Sys2Proof.Proofs
end

section
/-!
Finalisation: the padding as one sequence of ABSORBs, the closed form of DIGEST, the length field after SETBITCOUNT, and
the three commands of `hash` issued on the port (42_finalize.md R80 to R93; 30_encoding.md R68).
-/

namespace Sys2Proof.Proofs

open Sys2Proof.Machine Sys2Proof.Laws Sys2Proof.Safety

/-! ### The padding as a sequence of ABSORBs -/

/-- R80's two spellings of the number of zeros. -/
theorem zeroCount_eq_ite {n0 : Nat} (h : n0 < 64) : zeroCount n0 = if n0 ≤ 55 then 55 - n0 else 119 - n0 := by
  rw [zeroCount]; split <;> omega

/-- The loop absorbs the zeros that are missing to lenW 56, given that much fuel (42_finalize.md R83). -/
theorem padZeros_eq_absorbAll {fuel : Nat} {m : Message} (hfuel : (120 - m.lenW.val) % 64 ≤ fuel) :
    padZeros fuel m = absorbAll m (List.replicate ((120 - m.lenW.val) % 64) 0x00#8) := by
  have hlt := m.lenW.isLt
  induction fuel generalizing m with
  | zero => rw [Nat.le_zero.1 hfuel]; rfl
  | succ fuel ih =>
    rw [padZeros]
    split
    next hdone => simp [hdone]
    next hmore =>
      have hcount : (120 - m.lenW.val) % 64 = (120 - (absorb m 0x00#8).lenW.val) % 64 + 1 := by
        rw [absorb_lenW]; omega
      rw [hcount, List.replicate_succ, absorbAll_cons, ih (by omega) (absorb m 0x00#8).lenW.isLt]

/-- After the 0x80, the loop absorbs the zeros R80 counts. -/
theorem padZeros_after_marker (m : Message) :
    padZeros 63 (absorb m 0x80#8) =
      absorbAll (absorb m 0x80#8) (List.replicate (zeroCount m.lenW.val) 0x00#8) := by
  have hcount : (120 - (absorb m 0x80#8).lenW.val) % 64 = zeroCount m.lenW.val := by
    rw [absorb_lenW, zeroCount]; omega
  rw [padZeros_eq_absorbAll (by omega), hcount]

theorem padMessage_eq_absorbAll (m : Message) :
    padMessage m = absorbAll m (padding m.lenW.val m.bitCount) := by
  rw [padMessage, padZeros_after_marker, padding, absorbAll_append, absorbAll_append, absorbAll_cons, absorbAll_nil]

theorem padZeros_after_marker_lenW (m : Message) : (padZeros 63 (absorb m 0x80#8)).lenW.val = 56 := by
  rw [padZeros_after_marker, absorbAll_lenW, absorb_lenW, List.length_replicate, zeroCount]; omega

theorem padMessage_lenW (m : Message) : (padMessage m).lenW.val = 0 := by
  rw [padMessage_eq_absorbAll, absorbAll_lenW, padding_length]; omega

/-- Settles O27: the number of zeros is `zeroCount`, and lenW follows from the number of bytes absorbed. -/
theorem paddingIsAbsorbedAndCompletesTheBlock : Obligations.PaddingIsAbsorbedAndCompletesTheBlock := by
  intro m
  have hlt := m.lenW.isLt
  have hcount := zeroCount_eq_ite hlt
  refine ⟨zeroCount m.lenW.val, hcount, ?_, ?_, ?_, padZeros_after_marker m, padZeros_after_marker_lenW m,
    padMessage_eq_absorbAll m, padMessage_lenW m⟩ <;> rw [hcount] <;> split <;> omega

/-- Settles O28: word by word, the drain emits the bytes of `digestBytes`. -/
theorem drainIsBigEndianAndZeroes : Obligations.DrainIsBigEndianAndZeroes := by
  intro H
  rw [drainHash_eq]
  exact ⟨rfl, rfl⟩

/-! ### The hash after the padding -/

/-- R88 and R92: the padding after the held bytes and the bytes absorbed, whose number enters the length field,
compressed block by block. -/
theorem padMessage_absorbAll_H {m : Message} {p : List Byte} (h : m.Holds p) (bs : List Byte) :
    (padMessage (absorbAll m bs)).H = compressBlocks m.H
      (p ++ bs ++ padding ((p.length + bs.length) % 64) (m.bitCount + BitVec.ofNat 64 (8 * bs.length))) := by
  rw [padMessage_eq_absorbAll, ← absorbAll_append, (absorbAll_folds_blocks _ h).2, List.append_assoc, absorbAll_lenW,
    absorbAll_bitCount, h.1]

/-- R88: the same with nothing absorbed after the held bytes. -/
theorem padMessage_H_of_holds {m : Message} {p : List Byte} (h : m.Holds p) :
    (padMessage m).H = compressBlocks m.H (p ++ padding p.length m.bitCount) := by
  simpa [Nat.mod_eq_of_lt (holds_length_lt h)] using padMessage_absorbAll_H h []

/-- From the fresh message state the hash after the padding is the SHA-1 digest (R88, R89). -/
theorem digestBytes_padMessage_fresh (bs : List Byte) :
    digestBytes (padMessage (absorbAll Message.fresh bs)).H = sha1 bs := by
  rw [padMessage_absorbAll_H fresh_holds_nil, sha1]
  simp

/-! ### DIGEST and SETBITCOUNT -/

theorem digestOfBytes_digestBytes_toList (H : Hash) : (digestOfBytes (digestBytes H)).toList = digestBytes H :=
  digestOfBytes_toList (digestBytes_length H)

/-- Settles O30: DIGEST of a clean state, with the hash after the padding in closed form. -/
theorem digestClosedForm : Obligations.DigestClosedForm := by
  intro s p hclean hholds
  refine ⟨_, digest_of_clean hclean, ?_⟩
  rw [digestOfBytes_digestBytes_toList, padMessage_H_of_holds hholds]

/-- Settles O29: DIGEST is `execDigest`, which writes STATUS by `statusWithDvalid` and DOUT by `digestOutput`. -/
theorem digestCompletesAndResets : Obligations.DigestCompletesAndResets := by
  intro s
  obtain ⟨hdvalid, hfault, hcause, hreserved⟩ := statusWithDvalid_fields s.STATUS
  exact ⟨digestOutput s, _, statusWithDvalid s.STATUS, rfl, hdvalid, hfault, hcause, hreserved,
    fun hclean => ⟨digestOutput_of_clean hclean, by simp [hclean]⟩⟩

theorem exec_setbitcount (v : DWord) (s : State) :
    exec (.setbitcount v) s = .next { s with msg := { s.msg with bitCount := v } } := rfl

/-- Settles O34: `execSetbitcount` writes the one field. -/
theorem setbitcountWritesBitCountAlone : Obligations.SetbitcountWritesBitCountAlone := exec_setbitcount

/-- Settles O35: SETBITCOUNT keeps the held bytes, and the UPDATE's bytes are held and counted after them. -/
theorem lengthFieldAfterSetbitcount : Obligations.LengthFieldAfterSetbitcount := by
  intro s v off len p hoff hlen hend hclean hrace hholds
  have hin := (inBounds_iff off len s.buf.len).2 ⟨hoff, hlen, hend⟩
  have hkept : { s.msg with bitCount := v }.Holds p := hholds
  have hupdate := update_absorbs_slice (s := { s with msg := { s.msg with bitCount := v } }) hin hclean hrace
  have hdigest := digest_of_clean (s := { s with
    msg := absorbAll { s.msg with bitCount := v } (s.buf.slice off.toNat len.toNat) }) hclean
  refine ⟨_, _, (execAll_cons (exec_setbitcount v s) _).trans
    ((execAll_cons hupdate _).trans (execAll_cons hdigest [])), rfl, ?_⟩
  rw [digestOfBytes_digestBytes_toList, padMessage_absorbAll_H hkept, slice_length (inBounds_toNat hin)]

/-! ### The commands of `hash` on the port -/

/-- A run whose first action is a command's word, with no host write in progress, goes on from what the command
answers. -/
theorem run_succ_of_command {s t : State} {i : Instr} {rest : List HostAction}
    (hport : s.port = .command (encode i) :: rest) (hi : i.wellFormed = true) (hrace : s.inFlight = [])
    (hexec : exec i { s with port := rest } = .next t) (k : Nat) :
    Host.Core.run Sys2Proof.core (k + 1) s = Host.Core.run Sys2Proof.core k t := by
  obtain ⟨-, -, hinFlight, -⟩ := exec_keeps_hostSide hexec
  have hstep := step_of_command hport hi hexec
  rw [landWrites_of_inFlight_nil (hinFlight.trans hrace)] at hstep
  exact run_succ_of_step hstep k

/-- Settles O31: RESET makes the message state fresh, so DIGEST sees the bytes of the range alone. -/
theorem hashCommandsGiveSha1OfTheRange : Obligations.HashCommandsGiveSha1OfTheRange := by
  intro s off len hoff hlen hend hwell hrace hport
  have hin := (inBounds_iff off len s.buf.len).2 ⟨hoff, hlen, hend⟩
  have hreset := run_succ_of_command hport rfl hrace rfl 2
  have hupdate := run_succ_of_command (s := resetMessage { s with
    port := [.command (encode (.update off len)), .command (encode .digest)] }) rfl hwell hrace
    (update_absorbs_slice hin rfl hrace) 1
  have hdigest := run_succ_of_command (s := { s with
    port := [.command (encode .digest)]
    POISON := false
    msg := absorbAll Message.fresh (s.buf.slice off.toNat len.toNat) }) rfl rfl hrace (digest_of_clean rfl) 0
  refine ⟨_, hreset.trans (hupdate.trans hdigest), ?_⟩
  rw [digestOfBytes_digestBytes_toList, digestBytes_padMessage_fresh]

/-! ### The source's vectors -/

/-- Settles O33: the reference digest evaluates to each of the three values, the last over two blocks. -/
theorem sourceVectors : Obligations.SourceVectors := by
  refine ⟨?empty, ?abc, ?twoBlocks⟩
  case empty => decide +kernel
  case abc => decide +kernel
  case twoBlocks => decide +kernel

end Sys2Proof.Proofs
end

section
/-!
COMPRESS stage by stage: the pass functions and the rounds, the expanded schedule as the solution of its recurrence, and
the 16-word window that follows it (43_compress.md R97 to R114).
-/

namespace Sys2Proof.Proofs

open Sys2Proof.Machine Sys2Proof.Laws

/-! ### The pass functions and one round -/

theorem rotl32_eq_rotateLeft (x : Word) {n : Nat} (h : n < 32) : rotl32 x n = x.rotateLeft n := by
  rw [BitVec.rotateLeft_def, Nat.mod_eq_of_lt h, rotl32]

theorem getLsbD_fCh (B C D : Word) (i : Nat) :
    (fCh B C D).getLsbD i = if B.getLsbD i then C.getLsbD i else D.getLsbD i := by
  cases hB : B.getLsbD i <;> simp [fCh, hB]

theorem getLsbD_fParity (B C D : Word) (i : Nat) :
    (fParity B C D).getLsbD i = ((B.getLsbD i ^^ C.getLsbD i) ^^ D.getLsbD i) := by
  simp [fParity]

/-- The majority of three bits is their sum being 2 or more. -/
theorem getLsbD_fMaj (B C D : Word) (i : Nat) :
    (fMaj B C D).getLsbD i =
      decide (2 ≤ (B.getLsbD i).toNat + (C.getLsbD i).toNat + (D.getLsbD i).toNat) := by
  have majority : ∀ b c d : Bool, (b && c || d && (b || c)) = decide (2 ≤ b.toNat + c.toNat + d.toNat) := by decide
  simp [fMaj, majority]

/-- R111: where B is 1 only the first term can be 1, where B is 0 only the second. -/
theorem fCh_eq_fChSelect (B C D : Word) : fCh B C D = fChSelect B C D := by
  have selects : ∀ b c d : Bool, (if b then c else d) = (b && c || !b && d) := by decide
  refine BitVec.eq_of_getLsbD_eq fun i hi => ?_
  rw [getLsbD_fCh, selects]
  simp [fChSelect, hi]

/-- R112: D AND (B OR C) distributes. -/
theorem fMaj_eq_fMajPairs (B C D : Word) : fMaj B C D = fMajPairs B C D := by
  have distributes : ∀ b c d : Bool, (b && c || d && (b || c)) = (b && c || b && d || c && d) := by decide
  refine BitVec.eq_of_getLsbD_eq fun i _ => ?_
  simp [fMaj, fMajPairs, distributes]

/-- Settles O9: bit by bit each function is its truth table, and so are the other spellings. -/
theorem passFunctionsBitByBit : Obligations.PassFunctionsBitByBit :=
  fun B C D => ⟨fun i _ => ⟨getLsbD_fCh B C D i, getLsbD_fParity B C D i, getLsbD_fMaj B C D i⟩,
    fCh_eq_fChSelect B C D, fMaj_eq_fMajPairs B C D⟩

/-- Settles O10: the function and the constant are those the pass table gives for t, pass by pass. -/
theorem roundOfEachPass : Obligations.RoundOfEachPass := by
  intro w v t _
  refine ⟨roundFunction t v.B v.C v.D, roundConstant t, fun h => ?pass1, fun h h' => ?pass2, fun h h' => ?pass3,
    fun h => ?pass4, ?step⟩
  case pass1 => simp [roundFunction, roundConstant, h, fCh]
  case pass2 => simp [roundFunction, roundConstant, Nat.not_lt.2 h, h', fParity]
  case pass3 => simp [roundFunction, roundConstant, h', fMaj, show ¬t < 20 by omega, Nat.not_lt.2 h]
  case pass4 => simp [roundFunction, roundConstant, fParity, show ¬t < 20 by omega, show ¬t < 40 by omega, Nat.not_lt.2 h]
  case step => rw [← rotl32_eq_rotateLeft _ (by decide), ← rotl32_eq_rotateLeft _ (by decide), roundStep]

/-! ### The expanded schedule -/

/-- The right-hand side of R97 at `t`, over the words of `W`. -/
def recurrenceWord (W : Schedule) (t : Nat) : Word :=
  rotl32 (scheduleAt W (t - 3) ^^^ scheduleAt W (t - 8) ^^^ scheduleAt W (t - 14) ^^^ scheduleAt W (t - 16)) 1

/-- `recurrenceWord` at `t` reads words before `t` alone. -/
theorem recurrenceWord_congr {W V : Schedule} {t : Nat} (ht : 16 ≤ t)
    (h : ∀ j, j < t → scheduleAt W j = scheduleAt V j) : recurrenceWord W t = recurrenceWord V t := by
  rw [recurrenceWord, h _ (by omega), h _ (by omega), h _ (by omega), h _ (by omega), recurrenceWord]

/-- `V` is `W` with its first `n` words expanded: the block is kept, and the words from 16 on meet R97 within `V`. -/
structure ExpandedTo (n : Nat) (W V : Schedule) : Prop where
  block : ∀ t, t < 16 → scheduleAt V t = scheduleAt W t
  later : ∀ t, 16 ≤ t → t < n → scheduleAt V t = recurrenceWord V t

/-- One more word: the words before it are not written again, so what held of them still holds. -/
theorem expandedTo_expandAt {n : Nat} {W V : Schedule} (h : ExpandedTo n W V) (hn : 16 ≤ n) (hn' : n < 80) :
    ExpandedTo (n + 1) W (expandAt V n) := by
  have kept : ∀ j, j < n → scheduleAt (expandAt V n) j = scheduleAt V j := fun j hj => by
    rw [scheduleAt_expandAt V hn' (by omega), if_neg (Nat.ne_of_lt hj)]
  have written : scheduleAt (expandAt V n) n = recurrenceWord V n := by
    rw [scheduleAt_expandAt V hn' hn', if_pos rfl, recurrenceWord]
  refine ⟨fun t ht => (kept t (by omega)).trans (h.block t ht), fun t ht ht' => ?_⟩
  rw [recurrenceWord_congr ht fun j hj => kept j (by omega)]
  obtain rfl | hlt : t = n ∨ t < n := by omega
  · exact written
  · exact (kept t hlt).trans (h.later t ht hlt)

theorem expandedTo_foldl (W : Schedule) {n : Nat} (hn : n ≤ 64) :
    ExpandedTo (16 + n) W ((List.range' 16 n).foldl expandAt W) := by
  induction n with
  | zero => exact ⟨fun _ _ => rfl, fun t ht ht' => by omega⟩
  | succ n ih =>
    rw [List.range'_1_concat, List.foldl_append, List.foldl_cons, List.foldl_nil]
    exact expandedTo_expandAt (n := 16 + n) (ih (by omega)) (by omega) (by omega)

theorem expandedTo_expandSchedule (W : Schedule) : ExpandedTo 80 W (expandSchedule W) :=
  expandedTo_foldl W (Nat.le_refl 64)

/-- Settles O11: the recurrence is solved at every word once all of them are expanded. -/
theorem scheduleExpansionRecurrence : Obligations.ScheduleExpansionRecurrence := by
  intro W
  refine ⟨(expandedTo_expandSchedule W).block, fun t ht ht' => ?_⟩
  rw [(expandedTo_expandSchedule W).later t ht ht', recurrenceWord, rotl32_eq_rotateLeft _ (by decide)]

/-- The recurrence has one solution over a block: the old W[16..79] are not read. -/
theorem expandSchedule_congr {W V : Schedule} (h : ∀ j, j < 16 → scheduleAt W j = scheduleAt V j) :
    expandSchedule W = expandSchedule V := by
  have hW := expandedTo_expandSchedule W
  have hV := expandedTo_expandSchedule V
  refine schedule_ext fun t ht => ?_
  induction t using Nat.strongRecOn with
  | _ t ih =>
    obtain hlt | hge := Nat.lt_or_ge t 16
    · rw [hW.block t hlt, hV.block t hlt, h t hlt]
    · rw [hW.later t hge ht, hV.later t hge ht, recurrenceWord_congr hge fun j hj => ih j hj (by omega)]

/-! ### COMPRESS -/

/-- Settles O12: the fields COMPRESS writes, and the expanded schedule being that of the block alone. -/
theorem compressDependsOnHashAndBlockAlone : Obligations.CompressDependsOnHashAndBlockAlone := by
  intro m
  refine ⟨⟨_, rfl, compress_H m⟩, fun t _ => ?_, compress_lenW m, compress_bitCount m, fun n hH hblock => ⟨?_, ?_⟩⟩
  · rw [compress_W, scheduleAt_zero]
  · rw [compress_H, compress_H, hH, expandSchedule_congr hblock]
  · rw [compress_W, compress_W]

/-- Settles O13: the block's schedule as a list and the expanded W hold the same words. -/
theorem compressIsThePureFunction : Obligations.CompressIsThePureFunction :=
  fun _ _ _ hblock => compress_H_of_packed hblock

/-! ### The window form -/

/-- Before round `t` the window holds the schedule words E[t..t+15], as far as the schedule goes. -/
structure IsWindow (E : Schedule) (t : Nat) (win : List Word) : Prop where
  length : win.length = 16
  word : ∀ i, i < 16 → t + i < 80 → win.getD i 0#32 = scheduleAt E (t + i)

theorem isWindow_first {W E : Schedule} (h : ∀ t, t < 16 → scheduleAt E t = scheduleAt W t) :
    IsWindow E 0 ((List.range 16).map (scheduleAt W)) where
  length := by simp
  word i hi _ := by simp [List.getD_eq_getElem?_getD, hi, h i hi]

/-- The pass table with the other spellings (R111, R112). -/
theorem roundFunction_eq_otherSpellings (t : Nat) (B C D : Word) :
    (if t < 20 then fChSelect B C D else if 40 ≤ t ∧ t < 60 then fMajPairs B C D else fParity B C D) =
      roundFunction t B C D := by
  rw [roundFunction, fCh_eq_fChSelect, fMaj_eq_fMajPairs]
  by_cases h : t < 40
  · simp [h, Nat.not_le.2 h]
  · simp [h, Nat.not_lt.1 h]

/-- A round that takes its word from the front of the window is the round of that word. -/
theorem windowRound_working (win : List Word) (v : Working) (t : Nat) :
    (windowRound (win, v) t).2 = roundStep t (win.getD 0 0#32) v := by
  rw [roundStep, ← roundFunction_eq_otherSpellings, windowRound]

/-- A shifted window holds each of its later words one place earlier. -/
theorem shifted_getD_of_lt {win : List Word} (hlen : win.length = 16) {x : Word} {i : Nat} (hi : i < 15) :
    (win.drop 1 ++ [x]).getD i 0#32 = win.getD (i + 1) 0#32 := by
  have hdrop : i < (win.drop 1).length := by rw [List.length_drop]; omega
  rw [List.getD_eq_getElem?_getD, List.getD_eq_getElem?_getD, List.getElem?_append_left hdrop, List.getElem?_drop,
    Nat.add_comm]

/-- The word that enters a shifted window stands last. -/
theorem shifted_getD_last {win : List Word} (hlen : win.length = 16) {x : Word} :
    (win.drop 1 ++ [x]).getD 15 0#32 = x := by
  have hdrop : (win.drop 1).length = 15 := by rw [List.length_drop, hlen]
  rw [List.getD_eq_getElem?_getD, ← hdrop, List.getElem?_concat_length, Option.getD_some]

/-- The window moves on by one word: the one that enters is E[t+16], by the recurrence. -/
theorem isWindow_windowRound {W E : Schedule} (hE : ExpandedTo 80 W E) {t : Nat} {win : List Word}
    (h : IsWindow E t win) (v : Working) : IsWindow E (t + 1) (windowRound (win, v) t).1 := by
  obtain ⟨hlen, hword⟩ := h
  refine ⟨by simp [windowRound, hlen], fun i hi ht => ?_⟩
  dsimp only [windowRound]
  obtain hlt | rfl : i < 15 ∨ i = 15 := by omega
  · rw [shifted_getD_of_lt hlen hlt, hword _ (by omega) (by omega), Nat.add_comm i 1, Nat.add_assoc]
  · rw [shifted_getD_last hlen, hword 13 (by omega) (by omega), hword 8 (by omega) (by omega),
      hword 2 (by omega) (by omega), hword 0 (by omega) (by omega), hE.later (t + 1 + 15) (by omega) ht]
    rfl

/-- After `n` rounds the window has moved to word `n`, and the working variables are those of the rounds over W. -/
theorem windowRounds_simulate {W E : Schedule} (hE : ExpandedTo 80 W E) {first : List Word} (h : IsWindow E 0 first)
    (v : Working) {n : Nat} (hn : n ≤ 80) :
    IsWindow E n ((List.range n).foldl windowRound (first, v)).1 ∧
      ((List.range n).foldl windowRound (first, v)).2 =
        (List.range n).foldl (fun v t => roundStep t (scheduleAt E t) v) v := by
  induction n with
  | zero => exact ⟨h, rfl⟩
  | succ n ih =>
    obtain ⟨hwin, hv⟩ := ih (by omega)
    simp only [List.range_succ, List.foldl_append, List.foldl_cons, List.foldl_nil]
    refine ⟨isWindow_windowRound hE hwin _, ?_⟩
    rw [windowRound_working, hwin.word 0 (by omega) (by omega), hv, Nat.add_zero]

/-- Settles O14: the window's rounds simulate the rounds over the expanded schedule. -/
theorem windowFormComputesTheSameHash : Obligations.WindowFormComputesTheSameHash := by
  intro m
  have hE := expandedTo_expandSchedule m.W
  obtain ⟨-, hv⟩ := windowRounds_simulate hE (isWindow_first hE.block) (initWorking m.H) (Nat.le_refl 80)
  rw [compress_H, windowCompress, hv, runRounds]

end Sys2Proof.Proofs
end

section
/-!
The two faults and what they leave: the out-of-bounds UPDATE, the only sources of FAULT, and a run that ends with FAULT 0
(60_exceptions.md R115 to R131; 70_reset_and_hazards.md R146).
-/

namespace Sys2Proof.Proofs

open Sys2Proof.Machine Sys2Proof.Laws Sys2Proof.Safety

/-- Settles O40: the idle case of a step. -/
theorem idleStepHoldsTheState : Obligations.IdleStepHoldsTheState := fun _ => step_of_port_nil

/-! ### Where FAULT comes from -/

/-- The bounds check in the words of 41_intake.md R72, where it fails. -/
theorem inBounds_eq_false_iff (off len : Int) (n : Nat) :
    inBounds off len n = false ↔ ¬ (0 ≤ off ∧ 0 ≤ len ∧ off + len ≤ (n : Int)) := by
  rw [← inBounds_iff, Bool.not_eq_true]

/-- Settles O23: the check sees the length of buf alone, and the fault's entry reads neither buf nor its bytes. -/
theorem updateOutOfBoundsTakesBoundsFault : Obligations.UpdateOutOfBoundsTakesBoundsFault := by
  intro s off len hbounds
  have hout := (inBounds_eq_false_iff off len s.buf.len).2 hbounds
  obtain ⟨hfault, hcause, hdvalid, hreserved⟩ := statusRecordFault_fields s.STATUS .boundsFault
  exact ⟨freeMessage s.draws, s.draws + 1, statusRecordFault s.STATUS .boundsFault,
    update_of_outOfBounds s off len hout, hfault, hcause, hdvalid, hreserved,
    fun b hlen => update_of_outOfBounds { s with buf := b } off len (hlen ▸ hout)⟩

/-- Of the commands, UPDATE out of bounds alone raises FAULT (60_exceptions.md R115, R117). -/
theorem exec_raises_fault {i : Instr} {s t : State} (h : exec i s = .next t) (hclear : statusFault s.STATUS = false)
    (hset : statusFault t.STATUS = true) :
    ∃ off len, i = .update off len ∧ inBounds off len s.buf.len = false ∧ statusCause t.STATUS = 1#2 := by
  obtain ⟨o, l, bs, -, -, -, rfl⟩ | ⟨o, l, hi, hout, rfl⟩ | ⟨v, -, rfl⟩ | ⟨-, rfl⟩ | ⟨-, rfl⟩ := exec_cases h
  case inr.inl => exact ⟨o, l, hi, hout, by simp [hclear, faultCauseCode]⟩
  all_goals simp [hclear] at hset

/-- Settles O45: a host action that is no command word leaves FAULT or clears it, and a command word raises it as an UPDATE
out of bounds or as an illegal word. -/
theorem onlyTheTwoFaultsAreRaised : Obligations.OnlyTheTwoFaultsAreRaised := by
  intro s t h hclear hset
  obtain ⟨-, hstatus, -⟩ | ⟨cw, rest, u, hport, hu, rfl⟩ | ⟨rest, -, rfl⟩ := step_engine_cases h
  case inl => rw [hstatus, hclear] at hset; cases hset
  case inr.inr => exact absurd hset (by rw [powerOnReset_STATUS]; decide)
  refine ⟨cw, rest, hport, ?_⟩
  obtain ⟨i, hi, hexec⟩ | ⟨e, he, rfl⟩ := dispatchCommand_cases hu
  · obtain ⟨off, len, rfl, hout, hcause⟩ := exec_raises_fault hexec hclear hset
    exact .inl ⟨off, len, hi, (inBounds_eq_false_iff off len _).1 hout, hcause⟩
  · exact .inr ⟨e, he, by simp [hclear, faultCauseCode]⟩

/-! ### Runs without power-on reset -/

/-- No action waiting on the port is power-on reset. -/
def NoPowerOn (s : State) : Prop := ∀ a ∈ s.port, a ≠ .powerOn

theorem hostStep_keeps_port {a : HostAction} {s t : State} (h : hostStep a s = .next t) : t.port = s.port := by
  obtain ⟨cw, u, -, hu, rfl⟩ | ⟨-, rfl⟩ | ⟨-, rfl⟩ | ⟨bytes, -, rfl⟩ | ⟨i, b, -, -, rfl⟩ | ⟨i, b, -, -, rfl⟩ |
    ⟨-, rfl⟩ := hostStep_cases h
  case inl => exact (landWrites_port u).trans (dispatchCommand_keeps_port hu)
  all_goals rfl

/-- A step takes the oldest action from the port and puts none there (30_encoding.md R55). -/
theorem step_port {s t : State} (h : step s = .next t) : t.port = s.port.tail := by
  obtain ⟨hport, rfl⟩ | ⟨a, rest, hport, hstep⟩ := step_cases h
  · rw [hport, List.tail_nil]
  · rw [hport, List.tail_cons, hostStep_keeps_port hstep]

theorem step_keeps_noPowerOn {s t : State} (h : step s = .next t) (hs : NoPowerOn s) : NoPowerOn t := by
  intro a ha
  rw [step_port h] at ha
  exact hs a (List.mem_of_mem_tail ha)

/-- FAULT stays set until power-on reset (60_exceptions.md R124). -/
theorem step_keeps_fault {s t : State} (h : step s = .next t) (hs : NoPowerOn s) (hset : statusFault s.STATUS = true) :
    statusFault t.STATUS = true := by
  have hpower : ∀ rest, s.port ≠ .powerOn :: rest := fun rest hport => hs .powerOn (by simp [hport]) rfl
  exact ((statusIsStickyUntilPowerOn s t h hpower).1 hset).1

/-- A run that answers a next state answers one at its first step. -/
theorem step_of_run_succ {k : Nat} {s u : State} (h : Host.Core.run Sys2Proof.core (k + 1) s = .next u) :
    ∃ t, step s = .next t ∧ Host.Core.run Sys2Proof.core k t = .next u := by
  simp only [Host.Core.run] at h
  split at h
  case h_1 t hstep => exact ⟨t, hstep, h⟩
  all_goals cases h

/-- What every step keeps, every run keeps. -/
theorem run_keeps {P : State → Prop} (hstep : ∀ {s t : State}, step s = .next t → P s → P t) {n : Nat} {s t : State}
    (h : Host.Core.run Sys2Proof.core n s = .next t) (hs : P s) : P t := by
  induction n generalizing s with
  | zero => cases h; exact hs
  | succ n ih =>
    obtain ⟨u, hfirst, hrest⟩ := step_of_run_succ h
    exact ih hrest (hstep hfirst hs)

theorem run_keeps_fault {n : Nat} {s t : State} (h : Host.Core.run Sys2Proof.core n s = .next t) (hs : NoPowerOn s)
    (hset : statusFault s.STATUS = true) : statusFault t.STATUS = true :=
  (run_keeps (P := fun s => NoPowerOn s ∧ statusFault s.STATUS = true)
    (fun h ⟨hpower, hset⟩ => ⟨step_keeps_noPowerOn h hpower, step_keeps_fault h hpower hset⟩) h ⟨hs, hset⟩).2

/-- Settles O49: a fault after `n` steps would still be set at the end, and by the invariant a poisoned engine has one. -/
theorem runEndingWithoutFaultNeverFaulted : Obligations.RunEndingWithoutFaultNeverFaulted := by
  intro n k s t u hpower hinv hstart hend hclear
  have hpower_t : NoPowerOn t := run_keeps step_keeps_noPowerOn hstart hpower
  have hinv_t : Inv t := run_keeps (fun h hs => stepKeepsTheInvariant _ _ hs h) hstart hinv
  have hclear_t : statusFault t.STATUS ≠ true := fun hset =>
    absurd (run_keeps_fault hend hpower_t hset) (Bool.eq_false_iff.1 hclear)
  exact ⟨Bool.eq_false_iff.2 hclear_t, Bool.eq_false_iff.2 (mt hinv_t.poisonFaulted hclear_t)⟩

end Sys2Proof.Proofs
end

section
/-!
The two resets compared, and the run of UPDATE and DIGEST from a launch state (70_reset_and_hazards.md R132, R133, R136,
R139, R146).
-/

namespace Sys2Proof.Proofs

open Sys2Proof.Machine Sys2Proof.Laws Sys2Proof.Safety

/-! ### Power-on reset and RESET -/

/-- The step that takes the power-on reset input from the port. -/
theorem step_of_powerOn {s : State} {rest : List HostAction} (hport : s.port = .powerOn :: rest) :
    step s = .next (powerOnReset { s with port := rest }) :=
  step_of_port_cons hport

/-- Settles O36: the fields are those of `powerOnReset`, whose message state is the fresh one. -/
theorem powerOnResetLeavesAFreshEngine : Obligations.PowerOnResetLeavesAFreshEngine := by
  intro s rest hport
  have hmsg := powerOnReset_msg { s with port := rest }
  refine ⟨_, step_of_powerOn hport, ?_, fun j _ => ?_, ?_, ?_, powerOnReset_POISON _, powerOnReset_STATUS _,
    powerOnReset_DOUT _⟩
  · rw [hmsg, fresh_H, initialHash]
  · rw [hmsg, fresh_W, scheduleAt_zero]
  · rw [hmsg, fresh_lenW, Fin.val_zero]
  · rw [hmsg, fresh_bitCount]

theorem exec_reset (s : State) : exec .reset s = .next (resetMessage s) := rfl

theorem resetMessage_of_freshEngine {s : State} (h : FreshEngine s) : resetMessage s = s := by
  obtain ⟨hmsg, -, hclean, -⟩ := h
  rw [resetMessage, ← hmsg, ← hclean]

/-- Settles O37: `powerOnReset` is RESET's `resetMessage` with STATUS and DOUT written, and `resetMessage` writes a fresh
engine's own values. -/
theorem resetAndPowerOnDifferInStatusAndDout : Obligations.ResetAndPowerOnDifferInStatusAndDout := by
  refine ⟨fun s t u rest hport hstep hreset => ?_, fun s hfresh => ?_⟩
  · rw [step_of_powerOn hport] at hstep
    rw [exec_reset] at hreset
    cases hstep
    cases hreset
    exact ⟨rfl, resetMessage_STATUS _, resetMessage_DOUT _⟩
  · rw [exec_reset, resetMessage_of_freshEngine hfresh]

/-! ### The launched run -/

theorem slice_ofBytes (bytes : List Byte) : (Memory.ofBytes bytes).slice 0 bytes.length = bytes := by
  rw [Memory.slice, bytes_ofBytes, List.drop_zero, List.take_length]

/-- With POISON 0 and no host write in progress, an UPDATE of the whole buffer absorbs the bytes the host supplied. -/
theorem update_absorbs_hostBuffer {s : State} {bytes : List Byte} (hbuf : HostBuffer bytes s)
    (hclean : s.POISON = false) (hrace : NoRace s) :
    exec (.update 0 bytes.length) s = .next { s with msg := absorbAll s.msg bytes } := by
  have hlen : s.buf.len = bytes.length := by rw [hbuf, ofBytes_len]
  have hin : inBounds 0 bytes.length s.buf.len = true := (inBounds_iff _ _ _).2 (by omega)
  have hslice : s.buf.slice (0 : Int).toNat (bytes.length : Int).toNat = bytes := by
    rw [hbuf, Int.toNat_zero, Int.toNat_natCast, slice_ofBytes]
  rw [update_absorbs_slice hin hclean hrace, hslice]

/-- Settles O32: the UPDATE absorbs the buffer into the fresh message state, and DIGEST sets DVALID and keeps FAULT 0. -/
theorem launchedRunGivesTheDigestOfTheBuffer : Obligations.LaunchedRunGivesTheDigestOfTheBuffer := by
  intro s bytes hfresh hbuf hrace hfits hport
  obtain ⟨hmsg, hstatus, hclean, -⟩ := hfresh
  have hwell : (Instr.update 0 bytes.length).wellFormed = true := by
    simp only [Instr.wellFormed, Bool.and_eq_true, fitsSigned32_iff]; omega
  have hupdate := run_succ_of_command hport hwell hrace
    (update_absorbs_hostBuffer (s := { s with port := [.command (encode .digest)] }) hbuf hclean hrace) 1
  have hdigest := run_succ_of_command (s := { s with
    port := [.command (encode .digest)]
    msg := absorbAll s.msg bytes }) rfl rfl hrace (digest_of_clean hclean) 0
  obtain ⟨hdvalid, hfault, -⟩ := statusWithDvalid_fields s.STATUS
  refine ⟨_, _, hupdate.trans hdigest, hfault.trans ?_, hdvalid, rfl, ?_⟩
  · rw [hstatus]; rfl
  · rw [digestOfBytes_digestBytes_toList, hmsg, digestBytes_padMessage_fresh]

end Sys2Proof.Proofs
end
